-- ==== Sys2Proof/Word.lean ====
section
/-! DEFINITION. The word types of the core (spec/00_scope.md R4, R5): bytes, 16-bit words, 12-bit
addresses as they stand in an instruction, register indexes and key indexes. -/

namespace Sys2Proof

/-- Eight bits: a memory byte, a V register, a timer, the immediate `nn` (R4, R12, R51). -/
abbrev Byte := BitVec 8

/-- Sixteen bits: an instruction word, `pc`, `I`, a stack entry (R4, R50). -/
abbrev Word := BitVec 16

/-- The immediate `nnn`: twelve bits (R51). -/
abbrev Addr12 := BitVec 12

/-- The immediate `n`: four bits (R51). -/
abbrev Nibble := BitVec 4

/-- A register index 0..15 (R12, R51). -/
abbrev Reg := Fin 16

/-- A key index 0x0..0xF (R21, R160). -/
abbrev Key := Fin 16

/-- A font table: `FONT_SIZE` = 80 bytes, 16 glyphs of 5 bytes (R4, R11). -/
abbrev Font := Vector Byte 80

/-- VF, the register that doubles as the flag (R13). -/
abbrev VF : Reg := 15

end Sys2Proof
end

