-- ==== Sys2Proof/Config.lean ====
section
/-! DEFINITION. The parameters of the core (spec/00_scope.md R4) and its free values: the sizes, the
font, the halt word, the random byte and the key selection. -/

namespace Sys2Proof.Config

/-- `MEM_SIZE`: 4096 bytes, addresses 0x000 to 0xFFF (R4, R30). -/
def memSize : Nat := 0x1000

/-- `FONT_BASE`: the font starts at 0x000 (R4, R11). -/
def fontBase : Nat := 0x000

/-- `FONT_SIZE`: the font occupies [0x000, 0x050) (R4, R11). -/
def fontSize : Nat := 0x50

/-- `PROG_BASE`: programs load at 0x200 (R4, R171). -/
def progBase : Nat := 0x200

/-- `MAX_ROM`: 0xE00 bytes (R4, R141). -/
def maxRom : Nat := 0xE00

/-- `RESET_PC` (R4, R27). -/
def resetPc : Word := 0x200

/-- `HALT_OPCODE`, at the default the spec gives it (R4, R69, D3).  Log entry 5 (PRESUMED, unsafe). -/
def haltOpcode : Word := 0x00FD

/-- The bytes of the spec's default font (R11, D6): glyph `d` is the five bytes from `5 * d`.
Log entry 4 (PRESUMED, unsafe for a claim about the shape of a glyph). -/
def defaultFontBytes : List Byte :=
  [0xF0, 0x90, 0x90, 0x90, 0xF0] ++ [0x20, 0x60, 0x20, 0x20, 0x70] ++
  [0xF0, 0x10, 0xF0, 0x80, 0xF0] ++ [0xF0, 0x10, 0xF0, 0x10, 0xF0] ++
  [0x90, 0x90, 0xF0, 0x10, 0x10] ++ [0xF0, 0x80, 0xF0, 0x10, 0xF0] ++
  [0xF0, 0x80, 0xF0, 0x90, 0xF0] ++ [0xF0, 0x10, 0x20, 0x40, 0x40] ++
  [0xF0, 0x90, 0xF0, 0x90, 0xF0] ++ [0xF0, 0x90, 0xF0, 0x10, 0xF0] ++
  [0xF0, 0x90, 0xF0, 0x90, 0x90] ++ [0xE0, 0x90, 0xE0, 0x90, 0xE0] ++
  [0xF0, 0x80, 0x80, 0x80, 0xF0] ++ [0xE0, 0x90, 0x90, 0x90, 0xE0] ++
  [0xF0, 0x80, 0xF0, 0x80, 0xF0] ++ [0xF0, 0x80, 0xF0, 0x80, 0x80]

/-- The default of the argument `FONT` (R4, R11).  `initialize`, the commands of a host and the claims
take any font; a machine that starts at `State.reset` has this one. -/
def defaultFont : Font := ⟨⟨defaultFontBytes⟩, rfl⟩

/-- `Rand()`: the byte the n-th RND draws, a free value (R4, R101, D18).  Log entry 2. -/
opaque rand : Nat → Byte

/-- `KeySelect`'s free choice among the pressed keys, a function of the sixteen latches (R4, D17).
`Machine.keySelect` uses it only where it names a pressed key.  Log entry 3. -/
opaque keyPick : Vector Bool 16 → Key

end Sys2Proof.Config
end

