-- ==== Sys2Proof/Syntax.lean ====
section
/-! DEFINITION. The instruction set as syntax: one constructor per row of spec/opcode_table.json, the
six formats of spec/30_encoding.md R52, and the field tuple of R51. -/

namespace Sys2Proof

/-- The 35 instructions (spec/30_encoding.md R54 to R59), in the order of the opcode table. -/
inductive Instr where
  /-- `00E0` CLS (R120). -/
  | cls
  /-- `00EE` RET (R75). -/
  | ret
  /-- `00FD` HALT (R69). -/
  | halt
  /-- `1nnn` JP nnn (R76). -/
  | jp (nnn : Addr12)
  /-- `2nnn` CALL nnn (R77). -/
  | call (nnn : Addr12)
  /-- `3xnn` SE Vx,nn (R78). -/
  | seImm (x : Reg) (nn : Byte)
  /-- `4xnn` SNE Vx,nn (R79). -/
  | sneImm (x : Reg) (nn : Byte)
  /-- `5xy0` SE Vx,Vy (R80). -/
  | seReg (x y : Reg)
  /-- `6xnn` LD Vx,nn (R90). -/
  | ldImm (x : Reg) (nn : Byte)
  /-- `7xnn` ADD Vx,nn (R91). -/
  | addImm (x : Reg) (nn : Byte)
  /-- `8xy0` LD Vx,Vy (R92). -/
  | ldReg (x y : Reg)
  /-- `8xy1` OR Vx,Vy (R93). -/
  | orReg (x y : Reg)
  /-- `8xy2` AND Vx,Vy (R94). -/
  | andReg (x y : Reg)
  /-- `8xy3` XOR Vx,Vy (R95). -/
  | xorReg (x y : Reg)
  /-- `8xy4` ADD Vx,Vy (R96). -/
  | addReg (x y : Reg)
  /-- `8xy5` SUB Vx,Vy (R97). -/
  | subReg (x y : Reg)
  /-- `8xy6` SHR Vx; `y` stands in the word and is ignored (R52, R98). -/
  | shr (x y : Reg)
  /-- `8xy7` SUBN Vx,Vy (R99). -/
  | subn (x y : Reg)
  /-- `8xyE` SHL Vx; `y` stands in the word and is ignored (R52, R100). -/
  | shl (x y : Reg)
  /-- `9xy0` SNE Vx,Vy (R81). -/
  | sneReg (x y : Reg)
  /-- `Annn` LD I,nnn (R110). -/
  | ldI (nnn : Addr12)
  /-- `Bnnn` JP V0,nnn (R82). -/
  | jpV0 (nnn : Addr12)
  /-- `Cxnn` RND Vx,nn (R101). -/
  | rnd (x : Reg) (nn : Byte)
  /-- `Dxyn` DRW Vx,Vy,n (R121). -/
  | drw (x y : Reg) (n : Nibble)
  /-- `Ex9E` SKP Vx (R125). -/
  | skp (x : Reg)
  /-- `ExA1` SKNP Vx (R126). -/
  | sknp (x : Reg)
  /-- `Fx07` LD Vx,DT (R127). -/
  | ldVxDT (x : Reg)
  /-- `Fx0A` LD Vx,K (R128). -/
  | ldVxK (x : Reg)
  /-- `Fx15` LD DT,Vx (R129). -/
  | ldDTVx (x : Reg)
  /-- `Fx18` LD ST,Vx (R130). -/
  | ldSTVx (x : Reg)
  /-- `Fx1E` ADD I,Vx (R111). -/
  | addI (x : Reg)
  /-- `Fx29` LD F,Vx (R112). -/
  | ldF (x : Reg)
  /-- `Fx33` LD B,Vx (R113). -/
  | ldB (x : Reg)
  /-- `Fx55` LD [I],Vx (R114). -/
  | ldMemVx (x : Reg)
  /-- `Fx65` LD Vx,[I] (R115). -/
  | ldVxMem (x : Reg)
  deriving DecidableEq, Repr

/-- The six formats of spec/30_encoding.md R52. -/
inductive Format where
  | fixed | nnn | xnn | xy | xyn | x
  deriving DecidableEq, Repr

/-- The field tuple the decoder extracts from every word (spec/30_encoding.md R51). -/
structure Fields where
  /-- bits 15:12, the family -/
  f : Nibble
  /-- bits 11:8 -/
  x : Reg
  /-- bits 7:4 -/
  y : Reg
  /-- bits 3:0 -/
  n : Nibble
  /-- bits 7:0 -/
  nn : Byte
  /-- bits 11:0 -/
  nnn : Addr12
  deriving DecidableEq, Repr

end Sys2Proof
end

