-- ==== Sys2Proof/WellFormed.lean ====
section
/-! DEFINITION. The checks that the types alone do not make.  An `Instr` needs none: the bound of every
operand field (R51, R53) is in its type, so an operand out of range cannot be written down.  What
remains is the overlap of the fields (R51), the choice of the halt word (93_implementation_defined.md
I4), the size of the font (R11) and the length of a ROM (R171). -/

namespace Sys2Proof

/-- "`nn = y ++ n`, `nnn = x ++ y ++ n`" (spec/30_encoding.md R51): the overlapping fields agree. -/
def Fields.wf (d : Fields) : Bool :=
  d.nn == BitVec.ofFin (w := 4) d.y ++ d.n &&
  d.nnn == BitVec.ofFin (w := 4) d.x ++ BitVec.ofFin (w := 4) d.y ++ d.n

/-- A halt word is neither 00E0 nor 00EE and lies in group 0, where the other 34 instructions have no
word (I4: "any other value must be a word outside the 34 conventional instructions"; D3: "it lies in
group 0"). -/
def haltWordOk (w : Word) : Bool :=
  w.extractLsb' 12 4 == 0 && w != 0x00E0 && w != 0x00EE

/-- A font is 80 bytes whose low nibbles are 0 (spec/10_state.md R11). -/
def fontOk (f : List Byte) : Bool :=
  f.length == Config.fontSize && f.all (fun b => b.extractLsb' 0 4 == 0)

/-- A ROM is at most 0xE00 bytes long (spec/70_reset_and_hazards.md R171). -/
def romFits (bytes : List Byte) : Bool :=
  decide (bytes.length ≤ Config.maxRom)

end Sys2Proof
end

