-- ==== Sys2Proof/Decode.lean ====
section
/-! DEFINITION. The decoder and the encoder (spec/30_encoding.md R50 to R60): field extraction, which
never fails, then the selection of the instruction, which rejects by name; the encoder, and the rows
of spec/opcode_table.json. -/

namespace Sys2Proof

/-- Bits 15:8 of a word: the byte at the lower address (spec/20_memory.md R32). -/
def hiByte (op : Word) : Byte := op.extractLsb' 8 8

/-- Bits 7:0 of a word: the byte at the higher address (spec/20_memory.md R32). -/
def loByte (op : Word) : Byte := op.extractLsb' 0 8

/-- `memory[pc] ++ memory[pc+1]`, big-endian (spec/20_memory.md R32). -/
def wordOfBytes (hi lo : Byte) : Word := hi ++ lo

/-- Field extraction "by mask/shift" (spec/30_encoding.md R51): total on all 65536 words. -/
def fieldsOf (op : Word) : Fields where
  f := op.extractLsb' 12 4
  x := (op.extractLsb' 8 4).toFin
  y := (op.extractLsb' 4 4).toFin
  n := op.extractLsb' 0 4
  nn := op.extractLsb' 0 8
  nnn := op.extractLsb' 0 12

/-- Group 0: the whole word is compared (R55). -/
def decodeGroup0 (op : Word) : Option Instr :=
  if op = 0x00E0#16 then some .cls
  else if op = 0x00EE#16 then some .ret
  else if op = Config.haltOpcode then some .halt
  else none

/-- Group 8, selected by `n` (R56). -/
def decodeGroup8 (d : Fields) : Option Instr :=
  match d.n with
  | 0x0#4 => some (.ldReg d.x d.y)
  | 0x1#4 => some (.orReg d.x d.y)
  | 0x2#4 => some (.andReg d.x d.y)
  | 0x3#4 => some (.xorReg d.x d.y)
  | 0x4#4 => some (.addReg d.x d.y)
  | 0x5#4 => some (.subReg d.x d.y)
  | 0x6#4 => some (.shr d.x d.y)
  | 0x7#4 => some (.subn d.x d.y)
  | 0xE#4 => some (.shl d.x d.y)
  | _ => none

/-- Group E, selected by `nn` (R57). -/
def decodeGroupE (d : Fields) : Option Instr :=
  match d.nn with
  | 0x9E#8 => some (.skp d.x)
  | 0xA1#8 => some (.sknp d.x)
  | _ => none

/-- Group F, selected by `nn` (R58). -/
def decodeGroupF (d : Fields) : Option Instr :=
  match d.nn with
  | 0x07#8 => some (.ldVxDT d.x)
  | 0x0A#8 => some (.ldVxK d.x)
  | 0x15#8 => some (.ldDTVx d.x)
  | 0x18#8 => some (.ldSTVx d.x)
  | 0x1E#8 => some (.addI d.x)
  | 0x29#8 => some (.ldF d.x)
  | 0x33#8 => some (.ldB d.x)
  | 0x55#8 => some (.ldMemVx d.x)
  | 0x65#8 => some (.ldVxMem d.x)
  | _ => none

/-- Groups 5 and 9: an instruction only when the low nibble is 0 (R59). -/
def decodeLowZero (d : Fields) (i : Instr) : Option Instr :=
  if d.n = 0 then some i else none

/-- The primary map (R54); `none` is a word that matches no row (R60). -/
def decodeWord (op : Word) : Option Instr :=
  let d := fieldsOf op
  match d.f with
  | 0x0#4 => decodeGroup0 op
  | 0x1#4 => some (.jp d.nnn)
  | 0x2#4 => some (.call d.nnn)
  | 0x3#4 => some (.seImm d.x d.nn)
  | 0x4#4 => some (.sneImm d.x d.nn)
  | 0x5#4 => decodeLowZero d (.seReg d.x d.y)
  | 0x6#4 => some (.ldImm d.x d.nn)
  | 0x7#4 => some (.addImm d.x d.nn)
  | 0x8#4 => decodeGroup8 d
  | 0x9#4 => decodeLowZero d (.sneReg d.x d.y)
  | 0xA#4 => some (.ldI d.nnn)
  | 0xB#4 => some (.jpV0 d.nnn)
  | 0xC#4 => some (.rnd d.x d.nn)
  | 0xD#4 => some (.drw d.x d.y d.n)
  | 0xE#4 => decodeGroupE d
  | 0xF#4 => decodeGroupF d
  | _ => none

/-- Why a byte sequence is not an instruction. -/
inductive Reject where
  /-- Fewer than two bytes: no whole word (R50).  The fetch's own bound (R66) rules this out in a run. -/
  | truncated
  /-- The word matches no row of R54 to R59 (R60); executing it raises UnsupportedOpcode (R70). -/
  | unsupportedOpcode (op : Word)
  deriving DecidableEq, Repr

/-- Decoding of any bytes: the instruction and the bytes after it, or a rejection by name. -/
def decode : List Byte → Except Reject (Instr × List Byte)
  | hi :: lo :: rest =>
    match decodeWord (wordOfBytes hi lo) with
    | some i => .ok (i, rest)
    | none => .error (.unsupportedOpcode (wordOfBytes hi lo))
  | _ => .error .truncated

/-- The instruction the decoder reads from a table word: `w` cut to its `nbits` bits, laid out as the
hardware stores it (the byte at the lower address is bits 15:8, R32) and given to `decode`. -/
def decodeTableWord (nbits w : Nat) : Option Instr :=
  let op : Word := BitVec.ofNat 16 (w % 2 ^ nbits)
  match decode [hiByte op, loByte op] with
  | .ok (i, _) => some i
  | .error _ => none

/-! ### The encoder -/

/-- Format NNN of R52. -/
def wordNNN (f : Nibble) (nnn : Addr12) : Word := f ++ nnn

/-- Formats XNN and X of R52 (in X the byte `nn` is literal). -/
def wordXNN (f : Nibble) (x : Reg) (nn : Byte) : Word := f ++ BitVec.ofFin (w := 4) x ++ nn

/-- Formats XYN and XY of R52 (in XY the nibble `n` is literal). -/
def wordXYN (f : Nibble) (x y : Reg) (n : Nibble) : Word :=
  f ++ BitVec.ofFin (w := 4) x ++ BitVec.ofFin (w := 4) y ++ n

/-- The word of an instruction, from the patterns of R54 to R59. -/
def encode : Instr → Word
  | .cls => 0x00E0#16
  | .ret => 0x00EE#16
  | .halt => Config.haltOpcode
  | .jp nnn => wordNNN 0x1 nnn
  | .call nnn => wordNNN 0x2 nnn
  | .seImm x nn => wordXNN 0x3 x nn
  | .sneImm x nn => wordXNN 0x4 x nn
  | .seReg x y => wordXYN 0x5 x y 0x0
  | .ldImm x nn => wordXNN 0x6 x nn
  | .addImm x nn => wordXNN 0x7 x nn
  | .ldReg x y => wordXYN 0x8 x y 0x0
  | .orReg x y => wordXYN 0x8 x y 0x1
  | .andReg x y => wordXYN 0x8 x y 0x2
  | .xorReg x y => wordXYN 0x8 x y 0x3
  | .addReg x y => wordXYN 0x8 x y 0x4
  | .subReg x y => wordXYN 0x8 x y 0x5
  | .shr x y => wordXYN 0x8 x y 0x6
  | .subn x y => wordXYN 0x8 x y 0x7
  | .shl x y => wordXYN 0x8 x y 0xE
  | .sneReg x y => wordXYN 0x9 x y 0x0
  | .ldI nnn => wordNNN 0xA nnn
  | .jpV0 nnn => wordNNN 0xB nnn
  | .rnd x nn => wordXNN 0xC x nn
  | .drw x y n => wordXYN 0xD x y n
  | .skp x => wordXNN 0xE x 0x9E
  | .sknp x => wordXNN 0xE x 0xA1
  | .ldVxDT x => wordXNN 0xF x 0x07
  | .ldVxK x => wordXNN 0xF x 0x0A
  | .ldDTVx x => wordXNN 0xF x 0x15
  | .ldSTVx x => wordXNN 0xF x 0x18
  | .addI x => wordXNN 0xF x 0x1E
  | .ldF x => wordXNN 0xF x 0x29
  | .ldB x => wordXNN 0xF x 0x33
  | .ldMemVx x => wordXNN 0xF x 0x55
  | .ldVxMem x => wordXNN 0xF x 0x65

/-- The two bytes of an instruction as they stand in memory, big-endian (R32, R50). -/
def encodeBytes (i : Instr) : List Byte := [hiByte (encode i), loByte (encode i)]

/-! ### The rows of spec/opcode_table.json -/

/-- A row of the opcode table: "a word `w` is the instruction iff `w & mask = match`". -/
structure Row where
  mnemonic : String
  format : Format
  value : Word
  mask : Word
  deriving DecidableEq, Repr

/-- The opcode table's row of an instruction. -/
def Instr.row : Instr → Row
  | .cls => ⟨"CLS", .fixed, 0x00E0, 0xFFFF⟩
  | .ret => ⟨"RET", .fixed, 0x00EE, 0xFFFF⟩
  | .halt => ⟨"HALT", .fixed, 0x00FD, 0xFFFF⟩
  | .jp _ => ⟨"JP_nnn", .nnn, 0x1000, 0xF000⟩
  | .call _ => ⟨"CALL_nnn", .nnn, 0x2000, 0xF000⟩
  | .seImm _ _ => ⟨"SE_Vx_nn", .xnn, 0x3000, 0xF000⟩
  | .sneImm _ _ => ⟨"SNE_Vx_nn", .xnn, 0x4000, 0xF000⟩
  | .seReg _ _ => ⟨"SE_Vx_Vy", .xy, 0x5000, 0xF00F⟩
  | .ldImm _ _ => ⟨"LD_Vx_nn", .xnn, 0x6000, 0xF000⟩
  | .addImm _ _ => ⟨"ADD_Vx_nn", .xnn, 0x7000, 0xF000⟩
  | .ldReg _ _ => ⟨"LD_Vx_Vy", .xy, 0x8000, 0xF00F⟩
  | .orReg _ _ => ⟨"OR_Vx_Vy", .xy, 0x8001, 0xF00F⟩
  | .andReg _ _ => ⟨"AND_Vx_Vy", .xy, 0x8002, 0xF00F⟩
  | .xorReg _ _ => ⟨"XOR_Vx_Vy", .xy, 0x8003, 0xF00F⟩
  | .addReg _ _ => ⟨"ADD_Vx_Vy", .xy, 0x8004, 0xF00F⟩
  | .subReg _ _ => ⟨"SUB_Vx_Vy", .xy, 0x8005, 0xF00F⟩
  | .shr _ _ => ⟨"SHR_Vx", .xy, 0x8006, 0xF00F⟩
  | .subn _ _ => ⟨"SUBN_Vx_Vy", .xy, 0x8007, 0xF00F⟩
  | .shl _ _ => ⟨"SHL_Vx", .xy, 0x800E, 0xF00F⟩
  | .sneReg _ _ => ⟨"SNE_Vx_Vy", .xy, 0x9000, 0xF00F⟩
  | .ldI _ => ⟨"LD_I_nnn", .nnn, 0xA000, 0xF000⟩
  | .jpV0 _ => ⟨"JP_V0_nnn", .nnn, 0xB000, 0xF000⟩
  | .rnd _ _ => ⟨"RND_Vx_nn", .xnn, 0xC000, 0xF000⟩
  | .drw _ _ _ => ⟨"DRW_Vx_Vy_n", .xyn, 0xD000, 0xF000⟩
  | .skp _ => ⟨"SKP_Vx", .x, 0xE09E, 0xF0FF⟩
  | .sknp _ => ⟨"SKNP_Vx", .x, 0xE0A1, 0xF0FF⟩
  | .ldVxDT _ => ⟨"LD_Vx_DT", .x, 0xF007, 0xF0FF⟩
  | .ldVxK _ => ⟨"LD_Vx_K", .x, 0xF00A, 0xF0FF⟩
  | .ldDTVx _ => ⟨"LD_DT_Vx", .x, 0xF015, 0xF0FF⟩
  | .ldSTVx _ => ⟨"LD_ST_Vx", .x, 0xF018, 0xF0FF⟩
  | .addI _ => ⟨"ADD_I_Vx", .x, 0xF01E, 0xF0FF⟩
  | .ldF _ => ⟨"LD_F_Vx", .x, 0xF029, 0xF0FF⟩
  | .ldB _ => ⟨"LD_B_Vx", .x, 0xF033, 0xF0FF⟩
  | .ldMemVx _ => ⟨"LD__I__Vx", .x, 0xF055, 0xF0FF⟩
  | .ldVxMem _ => ⟨"LD_Vx__I", .x, 0xF065, 0xF0FF⟩

end Sys2Proof
end

