-- ==== Sys2Proof/Machine/State.lean ====
section
/-! DEFINITION. The state of the core (spec/10_state.md R10 to R27), the fault kinds
(spec/60_exceptions.md R140), the refusals of the model, and the state after reset. -/

namespace Sys2Proof.Machine

/-- The run status (R22): "the core is in exactly one of four statuses". -/
inductive Status where
  | running | waitingForKey | halted | faulted
  deriving DecidableEq, Repr

/-- The fault kinds of R140.  The core records a fault in its own state (R24, R150), so every meaning
TAKES the fault as a next state and none ends in `Host.Outcome.fault` (log entry 1, safe). -/
inductive Fault where
  /-- Code 1, raised by `loadProgram` on more than 0xE00 bytes (R141). -/
  | romTooLarge
  /-- Code 2, raised at dispatch on a word that is no instruction (R142). -/
  | unsupportedOpcode
  /-- Code 3, raised by CALL at `sp` = 16 (R143). -/
  | stackOverflow
  /-- Code 4, raised by RET at `sp` = 0 (R144). -/
  | stackUnderflow
  /-- Code 5, raised by the fetch at `pc` > 0xFFE (R145). -/
  | programCounterOutOfBounds
  /-- Code 6, raised by DRW, LD B, LD [I] and LD Vx,[I] on an address above 0xFFF (R146).  The spec's
  own kind (D10), and safe: it stops a run that the real core might continue. -/
  | dataAddressOutOfBounds
  /-- Code 7, raised by LD B and LD [I] on an address below 0x050 (R147).  The spec's own kind (D11),
  safe as code 6 is. -/
  | fontRegionWrite
  /-- Code 8, raised by SKP and SKNP at `Vx` > 15 (R148).  The spec's own kind (D16), safe as code 6 is. -/
  | keyIndexOutOfRange
  deriving DecidableEq, Repr

/-- What the model gives no meaning.  No instruction and no `step` is refused. -/
inductive Refusal where
  /-- An arm of `exec` whose instruction has no meaning yet: raised by no arm of this model (safe). -/
  | notModelled (mnemonic : String)
  /-- A command other than `initialize` before the first `initialize` (R172, I11): raised by
  `Session.command`, safe. -/
  | commandBeforeInitialize
  /-- `loadProgram` a second time or after the first `step` (R171, I11, D24): raised by
  `Session.command`, safe. -/
  | loadOutsideBoot
  deriving DecidableEq, Repr

/-- Memory: the bytes that differ from their reset value, by strictly rising address
(`Memory.wf`).  An address that is not listed reads as `unlistedByte`. -/
abbrev Memory := List Host.Cell

/-- The framebuffer `fb[Y][X]`: 32 rows of 64 cells, `true` is lit (R20). -/
abbrev FrameBuffer := Vector (Vector Bool 64) 32

/-- The sixteen key latches, `true` is pressed (R21). -/
abbrev Keypad := Vector Bool 16

/-- The state of the core, under the spec's names. -/
structure State where
  /-- memory (R10) -/
  mem : Memory
  /-- V0..VF (R12, R13) -/
  V : Vector Byte 16
  /-- the index register (R14) -/
  I : Word
  /-- the program counter (R15) -/
  pc : Word
  /-- the return stack (R16) -/
  stack : Vector Word 16
  /-- the stack depth, 0..16 (R17) -/
  sp : Fin 17
  /-- the delay timer (R18) -/
  DT : Byte
  /-- the sound timer (R19) -/
  ST : Byte
  /-- the framebuffer (R20) -/
  fb : FrameBuffer
  /-- the keypad latches (R21) -/
  key : Keypad
  /-- the run status (R22) -/
  status : Status
  /-- `wait_x`, the destination of a pending key wait (R23) -/
  waitX : Reg
  /-- `fault_kind`, `none` is the spec's None (R24, R140) -/
  faultKind : Option Fault
  /-- `fault_addr` (R24) -/
  faultAddr : Word
  /-- `fault_opcode` (R24) -/
  faultOpcode : Word
  /-- the MODEL's own field: how many bytes `Rand()` has given (log entry 2) -/
  draws : Nat
  deriving DecidableEq, Repr

/-- The outcome of one instruction or one step. -/
abbrev StepOutcome := Host.Outcome State Fault Refusal

/-- The state after `initialize` with the default font (R27, R170; `State.resetWith` takes any font):
every value is the spec's but that of `draws`, which is the model's (DESIGN CHOICE, log entry 2). -/
def State.reset : State where
  mem := []
  V := Vector.replicate 16 0
  I := 0
  pc := Config.resetPc
  stack := Vector.replicate 16 0
  sp := 0
  DT := 0
  ST := 0
  fb := Vector.replicate 32 (Vector.replicate 64 false)
  key := Vector.replicate 16 false
  status := .running
  waitX := 0
  faultKind := none
  faultAddr := 0
  faultOpcode := 0
  draws := 0

end Sys2Proof.Machine
end

