-- ==== Sys2Proof/Machine/Ops.lean ====
section
/-! DEFINITION. The named operations over memory, registers, stack and program counter
(spec/20_memory.md, spec/10_state.md), taking a fault (spec/60_exceptions.md R150) and, beside it, the
only way out of one, `initialize` (R151, R170). -/

namespace Sys2Proof.Machine

/-! ### Memory -/

/-- What an address that is not listed reads as: the reset contents under the default font, that is its
bytes at [0x000, 0x050) and 0x00 above them (R27).  A core with another font lists the bytes in which
that font differs (`State.resetWith`). -/
def unlistedByte (a : Nat) : Byte := Config.defaultFontBytes.getD a 0

/-- The byte at an address. -/
def Memory.read : Memory → Nat → Byte
  | [], a => unlistedByte a
  | c :: m, a => if c.1 = a then c.2 else Memory.read m a

/-- Drop what is listed at an address. -/
def Memory.erase (m : Memory) (a : Nat) : Memory := m.filter (fun c => c.1 != a)

/-- List a byte before the first higher address. -/
def Memory.insert (a : Nat) (b : Byte) : Memory → Memory
  | [] => [(a, b)]
  | c :: m => if a < c.1 then (a, b) :: c :: m else c :: Memory.insert a b m

/-- Store one byte; a byte equal to what the unlisted address reads as is not listed. -/
def Memory.write (m : Memory) (a : Nat) (b : Byte) : Memory :=
  if b = unlistedByte a then m.erase a else Memory.insert a b (m.erase a)

/-- Store consecutive bytes upward from an address. -/
def Memory.writeBytes : Memory → Nat → List Byte → Memory
  | m, _, [] => m
  | m, a, b :: bs => Memory.writeBytes (m.write a b) (a + 1) bs

/-- The canonical form: addresses strictly rising and inside the 4096 bytes (R10), and no byte listed
that the unlisted address reads as. -/
abbrev Memory.wf (m : Memory) : Prop :=
  (m.map Prod.fst).Pairwise (· < ·) ∧
    ∀ c ∈ m, c.1 < Config.memSize ∧ c.2 ≠ unlistedByte c.1

/-! ### Registers -/

/-- `V[x]` (R6, R12). -/
def State.getV (s : State) (x : Reg) : Byte := s.V[x.val]

/-- `V[x] <- b` (R6, R12). -/
def State.setV (s : State) (x : Reg) (b : Byte) : State := { s with V := s.V.set x.val b }

/-- `I <- w` (R6, R14): all sixteen bits are kept. -/
def State.setI (s : State) (w : Word) : State := { s with I := w }

/-- The generic advance `pc <- pc + 2` (R7). -/
def State.advance (s : State) : State := { s with pc := s.pc + 2 }

/-- A conditional skip: `pc + 4` when taken, else `pc + 2` (R78, R83 (f)). -/
def State.skipIf (s : State) (taken : Bool) : State :=
  { s with pc := if taken then s.pc + 2 + 2 else s.pc + 2 }

/-- `pc <- target`. -/
def State.jump (s : State) (target : Word) : State := { s with pc := target }

/-! ### The return stack (R16, R17) -/

/-- Push a return address; `none` when the sixteen entries are in use. -/
def State.push (s : State) (ret : Word) : Option State :=
  if h : s.sp.val < 16 then
    some { s with stack := s.stack.set s.sp.val ret, sp := ⟨s.sp.val + 1, by omega⟩ }
  else none

/-- Pop the entry most recently pushed, which stays in `stack`; `none` when the stack is empty. -/
def State.pop (s : State) : Option (Word × State) :=
  if h : s.sp.val = 0 then none
  else some (s.stack[s.sp.val - 1], { s with sp := ⟨s.sp.val - 1, by omega⟩ })

/-! ### Faults -/

/-- `raise K(addr = pc, opcode)` (R150): the status and the fault record change and nothing else. -/
def State.takeFault (s : State) (k : Fault) (opcode : Word) : State :=
  { s with status := .faulted, faultKind := some k, faultAddr := s.pc, faultOpcode := opcode }

/-- An instruction's own fault: the record takes its word (R143 to R148; log entry 8). -/
def raise (k : Fault) (i : Instr) (s : State) : StepOutcome := .next (s.takeFault k (encode i))

/-- The state after `initialize` with the font given (R4, R11, R27); with the default font it is
`State.reset`. -/
def State.resetWith (font : Font) : State :=
  { State.reset with mem := State.reset.mem.writeBytes Config.fontBase font.toList }

/-- The command `initialize` (R170; spelt `initialise` here, the other spelling is a word of Lean), which
alone leaves Halted and Faulted (R22, R151).  `FONT` is its argument (R4).  It does not rewind the model's
counter of random draws (log entry 2). -/
def initialise (font : Font) (s : State) : State := { State.resetWith font with draws := s.draws }

/-! ### Fetch (R66) -/

/-- The word at an address, big-endian (R32). -/
def Memory.readWord (m : Memory) (a : Nat) : Word := wordOfBytes (m.read a) (m.read (a + 1))

/-- The fetch: `none` when a byte of the instruction lies past the end of memory (R66). -/
def State.fetch (s : State) : Option Word :=
  if s.pc.toNat > 0xFFE then none else some (s.mem.readWord s.pc.toNat)

/-- Lay a word out at an address as the hardware stores it (R32). -/
def Memory.placeWord (m : Memory) (a : Nat) (op : Word) : Memory :=
  m.writeBytes a [hiByte op, loByte op]

end Sys2Proof.Machine
end

