-- ==== Sys2Proof/Machine/Flags.lean ====
section
/-! DEFINITION. The flag computations: every value VF takes as a flag (spec/10_state.md R13), computed
from operands read before anything is written (spec/42_alu.md R102). -/

namespace Sys2Proof.Machine

/-- "A flag is always exactly 0 or 1" (R102). -/
def flagByte (f : Bool) : Byte := if f then 1 else 0

/-- ADD Vx,Vy: the unsigned sum exceeds 255 (R96). -/
def carryOf (a b : Byte) : Bool := decide (a.toNat + b.toNat > 255)

/-- SUB and SUBN: no borrow in `a - b` (R97, R99). -/
def noBorrowOf (a b : Byte) : Bool := decide (a.toNat ≥ b.toNat)

/-- SHR: the bit shifted out, old bit 0 (R98). -/
def shiftedOutRight (a : Byte) : Bool := a.getLsbD 0

/-- SHL: the bit shifted out, old bit 7 (R100). -/
def shiftedOutLeft (a : Byte) : Bool := a.getLsbD 7

/-- ADD I,Vx: the unbounded sum exceeds 0xFFF (R111). -/
def indexOverflow (i : Word) (a : Byte) : Bool := decide (i.toNat + a.toNat > 0xFFF)

/-- Write the result, then the flag, then advance: with `x` = 15 the flag is what VF holds (R103). -/
def writeWithFlag (x : Reg) (result : Byte) (flag : Bool) (s : State) : StepOutcome :=
  .next ((s.setV x result).setV VF (flagByte flag)).advance

/-- Write a result that sets no flag, then advance (R90 to R95, R127). -/
def writeResult (x : Reg) (result : Byte) (s : State) : StepOutcome :=
  .next (s.setV x result).advance

end Sys2Proof.Machine
end

