-- ==== Sys2Proof/Machine/Operands.lean ====
section
/-! DEFINITION. The operand forms: zero-extended immediates (spec/30_encoding.md R53), memory operands
at `I + k` with their checks (spec/20_memory.md R35 to R37), decimal digits, glyph addresses, and the
key selection (spec/00_scope.md R4). -/

namespace Sys2Proof.Machine

/-- `nnn` zero-extended to 16 bits (R53). -/
def target (nnn : Addr12) : Word := nnn.setWidth 16

/-- A byte zero-extended to 16 bits. -/
def widen (b : Byte) : Word := b.setWidth 16

/-! ### Memory operands -/

/-- `EA = I + k` on unbounded integers (R35). -/
def State.ea (s : State) (k : Nat) : Nat := s.I.toNat + k

/-- The check of `MemRead(EA, 1)` (R36). -/
def memReadFault (ea : Nat) : Option Fault :=
  if ea > 0xFFF then some .dataAddressOutOfBounds else none

/-- The checks of `MemWrite(EA, 1, v)`, bounds first (R37). -/
def memWriteFault (ea : Nat) : Option Fault :=
  if ea > 0xFFF then some .dataAddressOutOfBounds
  else if ea < 0x050 then some .fontRegionWrite
  else none

/-- The check of `count` reads upward from `I`, made before anything changes: "it is enough to check
the highest" (R36); no read, no check (R121 (e)). -/
def State.readFault (s : State) (count : Nat) : Option Fault :=
  if count = 0 then none else memReadFault (s.ea (count - 1))

/-- The checks of `count` > 0 writes upward from `I`, the out-of-bounds check before the font check
(R37, R113, R114). -/
def State.writeFault (s : State) (count : Nat) : Option Fault :=
  if s.ea (count - 1) > 0xFFF then some .dataAddressOutOfBounds
  else if s.ea 0 < 0x050 then some .fontRegionWrite
  else none

/-- The bytes at `I`, `I + 1`, … (R33). -/
def State.bytesAtI (s : State) (count : Nat) : List Byte :=
  (List.range count).map (fun k => s.mem.read (s.ea k))

/-- V0..Vx, V0 first (R33, R114). -/
def State.regsUpTo (s : State) (x : Reg) : List Byte := s.V.toList.take (x.val + 1)

/-- Load consecutive registers upward from number `k` (R115). -/
def loadRegs : Vector Byte 16 → Nat → List Byte → Vector Byte 16
  | v, _, [] => v
  | v, k, b :: bs => loadRegs (v.setIfInBounds k b) (k + 1) bs

/-! ### Decimal digits and glyphs -/

/-- "hundreds, tens, ones, in that order", each a binary number 0..9 (R113). -/
def bcdDigits (a : Byte) : List Byte :=
  [BitVec.ofNat 8 (a.toNat / 100), BitVec.ofNat 8 (a.toNat / 10 % 10), BitVec.ofNat 8 (a.toNat % 10)]

/-- The address of the glyph for the low nibble: `(a & 0x0F) * 5` (R112). -/
def glyphAddress (a : Byte) : Word := widen (a &&& 0x0F) * 5

/-! ### Keys -/

/-- The latch a V register names; `none` when its value is above 15 (R125, R126). -/
def State.latch (s : State) (b : Byte) : Option Bool :=
  if h : b.toNat < 16 then some s.key[b.toNat] else none

/-- The keys that are down, lowest first. -/
def pressedKeys (key : Keypad) : List Key := (List.finRange 16).filter (fun k => key[k.val])

/-- `KeySelect` (R4, D17): `none` when no key is down; the key when one is; when several are, a free
choice among them.  Log entry 3 (safe). -/
def keySelect (key : Keypad) : Option Key :=
  match pressedKeys key with
  | [] => none
  | [k] => some k
  | k :: ks => some (if Config.keyPick key ∈ k :: ks then Config.keyPick key else k)

/-- A key index zero-extended to 8 bits (R68, R128). -/
def keyByte (k : Key) : Byte := BitVec.ofNat 8 k.val

end Sys2Proof.Machine
end

