-- ==== Sys2Proof/Machine/Alu.lean ====
section
/-! DEFINITION. Register load, arithmetic, logic, shifts and random (spec/42_alu.md R90 to R103). -/

namespace Sys2Proof.Machine

/-- `6xnn` LD Vx,nn (R90). -/
def execLdImm (x : Reg) (nn : Byte) (s : State) : StepOutcome := writeResult x nn s

/-- `7xnn` ADD Vx,nn: modulo 256, no flag (R91). -/
def execAddImm (x : Reg) (nn : Byte) (s : State) : StepOutcome :=
  writeResult x (s.getV x + nn) s

/-- `8xy0` LD Vx,Vy (R92). -/
def execLdReg (x y : Reg) (s : State) : StepOutcome := writeResult x (s.getV y) s

/-- `8xy1` OR Vx,Vy: VF is not written (R93). -/
def execOr (x y : Reg) (s : State) : StepOutcome :=
  writeResult x (s.getV x ||| s.getV y) s

/-- `8xy2` AND Vx,Vy: VF is not written (R94). -/
def execAnd (x y : Reg) (s : State) : StepOutcome :=
  writeResult x (s.getV x &&& s.getV y) s

/-- `8xy3` XOR Vx,Vy: VF is not written (R95). -/
def execXor (x y : Reg) (s : State) : StepOutcome :=
  writeResult x (s.getV x ^^^ s.getV y) s

/-- `8xy4` ADD Vx,Vy: VF = carry, written last (R96). -/
def execAdd (x y : Reg) (s : State) : StepOutcome :=
  writeWithFlag x (s.getV x + s.getV y) (carryOf (s.getV x) (s.getV y)) s

/-- `8xy5` SUB Vx,Vy: VF = no borrow, from the operands before the subtraction (R97). -/
def execSub (x y : Reg) (s : State) : StepOutcome :=
  writeWithFlag x (s.getV x - s.getV y) (noBorrowOf (s.getV x) (s.getV y)) s

/-- `8xy6` SHR Vx: logical, in place; `y` is ignored (R98). -/
def execShr (x _y : Reg) (s : State) : StepOutcome :=
  writeWithFlag x (s.getV x >>> 1) (shiftedOutRight (s.getV x)) s

/-- `8xy7` SUBN Vx,Vy: Vy - Vx, VF = no borrow (R99). -/
def execSubn (x y : Reg) (s : State) : StepOutcome :=
  writeWithFlag x (s.getV y - s.getV x) (noBorrowOf (s.getV y) (s.getV x)) s

/-- `8xyE` SHL Vx: in place; `y` is ignored (R100). -/
def execShl (x _y : Reg) (s : State) : StepOutcome :=
  writeWithFlag x (s.getV x <<< 1) (shiftedOutLeft (s.getV x)) s

/-- RND with the byte `r` that `Rand()` gives (R101). -/
def rndWith (r : Byte) (x : Reg) (nn : Byte) (s : State) : StepOutcome :=
  writeResult x (r &&& nn) { s with draws := s.draws + 1 }

/-- `Cxnn` RND Vx,nn: each execution draws a fresh free byte (R101; log entry 2). -/
def execRnd (x : Reg) (nn : Byte) (s : State) : StepOutcome :=
  rndWith (Config.rand s.draws) x nn s

end Sys2Proof.Machine
end

