-- ==== Sys2Proof/Machine/Control.lean ====
section
/-! DEFINITION. Control transfer (spec/41_control_flow.md R75 to R83) and HALT
(spec/40_step_cycle.md R69). -/

namespace Sys2Proof.Machine

/-- `00FD` HALT: a normal end, not a fault; `pc` takes the generic advance (R69, R152). -/
def execHalt (s : State) : StepOutcome := .next { s.advance with status := .halted }

/-- `00EE` RET (R75). -/
def execRet (s : State) : StepOutcome :=
  match s.pop with
  | some (ret, s') => .next (s'.jump ret)
  | none => raise .stackUnderflow .ret s

/-- `1nnn` JP nnn (R76). -/
def execJp (nnn : Addr12) (s : State) : StepOutcome := .next (s.jump (target nnn))

/-- `2nnn` CALL nnn: pushes the address of the next instruction (R77). -/
def execCall (nnn : Addr12) (s : State) : StepOutcome :=
  match s.push (s.pc + 2) with
  | some s' => .next (s'.jump (target nnn))
  | none => raise .stackOverflow (.call nnn) s

/-- `3xnn` SE Vx,nn (R78). -/
def execSeImm (x : Reg) (nn : Byte) (s : State) : StepOutcome := .next (s.skipIf (s.getV x == nn))

/-- `4xnn` SNE Vx,nn (R79). -/
def execSneImm (x : Reg) (nn : Byte) (s : State) : StepOutcome := .next (s.skipIf (s.getV x != nn))

/-- `5xy0` SE Vx,Vy (R80). -/
def execSeReg (x y : Reg) (s : State) : StepOutcome := .next (s.skipIf (s.getV x == s.getV y))

/-- `9xy0` SNE Vx,Vy (R81). -/
def execSneReg (x y : Reg) (s : State) : StepOutcome := .next (s.skipIf (s.getV x != s.getV y))

/-- `Bnnn` JP V0,nnn: the sum keeps 16 bits and is not wrapped into the 12-bit space (R82). -/
def execJpV0 (nnn : Addr12) (s : State) : StepOutcome :=
  .next (s.jump (target nnn + widen (s.getV 0)))

end Sys2Proof.Machine
end

