-- ==== Sys2Proof/Machine/Display.lean ====
section
/-! DEFINITION. The Display Surface (spec/44_display.md R120 to R123): clear, and the XOR blit with
clipping and collision, as the loop of R121. -/

namespace Sys2Proof.Machine

/-- Every cell unlit (R120). -/
def blankScreen : FrameBuffer := Vector.replicate 32 (Vector.replicate 64 false)

/-- Flip the cell (X, Y) and note a collision when it was lit; a pixel off the grid is discarded
(R121, R123). -/
def flipCell (X Y : Nat) (d : FrameBuffer × Bool) : FrameBuffer × Bool :=
  if h : X < 64 ∧ Y < 32 then
    (d.1.set Y (d.1[Y].set X (!d.1[Y][X])), d.2 || d.1[Y][X])
  else d

/-- Draw one sprite row: bit 7 is the leftmost pixel (R121 (a)). -/
def drawRow (b : Byte) (px Y : Nat) (d : FrameBuffer × Bool) : FrameBuffer × Bool :=
  (List.range 8).foldl (fun d c => if b.getLsbD (7 - c) then flipCell (px + c) Y d else d) d

/-- Draw the sprite rows downward from row `Y`: coordinates are unbounded and do not wrap (R121). -/
def drawRows : List Byte → Nat → Nat → FrameBuffer × Bool → FrameBuffer × Bool
  | [], _, _, d => d
  | b :: bs, px, Y, d => drawRows bs px (Y + 1) (drawRow b px Y d)

/-- `00E0` CLS (R120). -/
def execCls (s : State) : StepOutcome := .next (State.advance { s with fb := blankScreen })

/-- `Dxyn` DRW Vx,Vy,n: coordinates and sprite bytes are read, and the bounds checked, before VF or the
framebuffer changes; VF = collision (R121). -/
def execDrw (x y : Reg) (n : Nibble) (s : State) : StepOutcome :=
  match s.readFault n.toNat with
  | some k => raise k (.drw x y n) s
  | none =>
    let d := drawRows (s.bytesAtI n.toNat) (s.getV x).toNat (s.getV y).toNat (s.fb, false)
    .next (State.setV { s with fb := d.1 } VF (flagByte d.2)).advance

end Sys2Proof.Machine
end

