-- ==== Sys2Proof/Machine/IndexMemory.lean ====
section
/-! DEFINITION. Index register and memory instructions (spec/43_index_memory.md R110 to R116).  A load
or a store leaves `I` as it was (R116). -/

namespace Sys2Proof.Machine

/-- `Annn` LD I,nnn (R110). -/
def execLdI (nnn : Addr12) (s : State) : StepOutcome := .next (s.setI (target nnn)).advance

/-- `Fx1E` ADD I,Vx: modulo 65536, VF = the unbounded sum is above 0xFFF, written last (R111). -/
def execAddI (x : Reg) (s : State) : StepOutcome :=
  .next ((s.setI (s.I + widen (s.getV x))).setV VF (flagByte (indexOverflow s.I (s.getV x)))).advance

/-- `Fx29` LD F,Vx (R112). -/
def execLdF (x : Reg) (s : State) : StepOutcome := .next (s.setI (glyphAddress (s.getV x))).advance

/-- Store bytes upward from `I`: both checks first, then every byte, then the advance (R37, R113, R114). -/
def storeAtI (i : Instr) (bytes : List Byte) (s : State) : StepOutcome :=
  match s.writeFault bytes.length with
  | some k => raise k i s
  | none => .next (State.advance { s with mem := s.mem.writeBytes (s.ea 0) bytes })

/-- `Fx33` LD B,Vx: three decimal digits (R113). -/
def execLdB (x : Reg) (s : State) : StepOutcome := storeAtI (.ldB x) (bcdDigits (s.getV x)) s

/-- `Fx55` LD [I],Vx: V0..Vx, VF included when `x` = 15 (R114). -/
def execLdMemVx (x : Reg) (s : State) : StepOutcome := storeAtI (.ldMemVx x) (s.regsUpTo x) s

/-- `Fx65` LD Vx,[I]: V0..Vx (R115). -/
def execLdVxMem (x : Reg) (s : State) : StepOutcome :=
  match s.readFault (x.val + 1) with
  | some k => raise k (.ldVxMem x) s
  | none => .next (State.advance { s with V := loadRegs s.V 0 (s.bytesAtI (x.val + 1)) })

end Sys2Proof.Machine
end

