-- ==== Sys2Proof/Machine/KeypadTimers.lean ====
section
/-! DEFINITION. Keypad and timer instructions (spec/45_keypad_timers.md R125 to R130) and the step of a
core that waits for a key (spec/40_step_cycle.md R68). -/

namespace Sys2Proof.Machine

/-- `Ex9E` SKP Vx: skip when the key is down (R125). -/
def execSkp (x : Reg) (s : State) : StepOutcome :=
  match s.latch (s.getV x) with
  | some down => .next (s.skipIf down)
  | none => raise .keyIndexOutOfRange (.skp x) s

/-- `ExA1` SKNP Vx: skip when the key is up (R126). -/
def execSknp (x : Reg) (s : State) : StepOutcome :=
  match s.latch (s.getV x) with
  | some down => .next (s.skipIf (!down))
  | none => raise .keyIndexOutOfRange (.sknp x) s

/-- `Fx07` LD Vx,DT (R127). -/
def execLdVxDT (x : Reg) (s : State) : StepOutcome := writeResult x s.DT s

/-- `Fx0A` LD Vx,K: completes at once when a key is down, else enters the wait with `pc` unchanged
(R128). -/
def execLdVxK (x : Reg) (s : State) : StepOutcome :=
  match keySelect s.key with
  | some k => writeResult x (keyByte k) s
  | none => .next { s with waitX := x, status := .waitingForKey }

/-- `Fx15` LD DT,Vx (R129). -/
def execLdDTVx (x : Reg) (s : State) : StepOutcome := .next (State.advance { s with DT := s.getV x })

/-- `Fx18` LD ST,Vx (R130). -/
def execLdSTVx (x : Reg) (s : State) : StepOutcome := .next (State.advance { s with ST := s.getV x })

/-- A step in `WaitingForKey` (R68): no fetch; the wait completes when a latch is set. -/
def stepWaiting (s : State) : State :=
  match keySelect s.key with
  | some k => { (s.setV s.waitX (keyByte k)).advance with status := .running }
  | none => s

end Sys2Proof.Machine
end

