-- ==== Sys2Proof/Machine/Step.lean ====
section
/-! DEFINITION. The command `step` (spec/40_step_cycle.md R65 to R72), and the placing of a word where
the next step fetches it. -/

namespace Sys2Proof.Machine

/-- One step, by run status (R65): nothing in Halted and Faulted, R68 in WaitingForKey, and in Running
fetch (R66), decode and dispatch (R67), the default arm being UnsupportedOpcode (R70). -/
def step (s : State) : Host.Outcome State Fault Refusal :=
  match s.status with
  | .halted => .next s
  | .faulted => .next s
  | .waitingForKey => .next (stepWaiting s)
  | .running =>
    match s.fetch with
    | none => .next (s.takeFault .programCounterOutOfBounds 0)
    | some op =>
      match decodeWord op with
      | none => .next (s.takeFault .unsupportedOpcode op)
      | some i => exec i s

/-- `s` with a table word stored where `step` fetches its next instruction, so that the very next step
runs it: the word's two bytes at `pc`, the status Running, and `pc` back at 0x200 when no fetch is
possible where it stands.  It stands for the loading of a program (log entry 6). -/
def State.withFetchWord (s : State) (nbits w : Nat) : State :=
  let at_ : Word := if s.pc.toNat > 0xFFE then Config.resetPc else s.pc
  { s with
    pc := at_
    status := .running
    mem := s.mem.placeWord at_.toNat (BitVec.ofNat 16 (w % 2 ^ nbits)) }

end Sys2Proof.Machine
end

