-- ==== Sys2Proof/Machine/Commands.lean ====
section
/-! DEFINITION. The host's other commands and the read accessors (spec/60_exceptions.md R155, R158,
R160 to R162, spec/70_reset_and_hazards.md R171).  Each acts in every run status and none is refused;
when a command may be issued at all is the business of Machine/Session.lean. -/

namespace Sys2Proof.Machine

/-- One timer, one tick: "decrements each timer by at most 1, never below 0" (R155). -/
def tickDown (t : Byte) : Byte := if t.toNat > 0 then t - 1 else t

/-- The command `tickTimers` (R155). -/
def tickTimers (s : State) : State := { s with DT := tickDown s.DT, ST := tickDown s.ST }

/-- The command `setKey(index, pressed)` (R160). -/
def setKey (k : Key) (pressed : Bool) (s : State) : State := { s with key := s.key.set k.val pressed }

/-- The command `loadProgram(bytes)` (R171); a ROM that is too long copies nothing and faults (R141). -/
def loadProgram (bytes : List Byte) (s : State) : State :=
  if romFits bytes then { s with mem := s.mem.writeBytes Config.progBase bytes }
  else s.takeFault .romTooLarge 0

/-! ### Accessors: they change nothing -/

/-- The framebuffer "row-major, boolean per cell": element `64*Y + X` is `fb[Y][X]` (R161). -/
def readFramebuffer (s : State) : List Bool := (s.fb.toList.map Vector.toList).flatten

/-- The extended-mode flag "always reads false" (R135, R161). -/
def readExtendedMode (_ : State) : Bool := false

/-- `haltRequested` is true iff the status is Halted (R22, R162). -/
def haltRequested (s : State) : Bool := s.status == .halted

/-- The timers, DT then ST (R162). -/
def readTimers (s : State) : Byte × Byte := (s.DT, s.ST)

/-- The numeric code of a fault kind, 0 for None (R140, D20). -/
def faultCode : Option Fault → Nat
  | none => 0
  | some .romTooLarge => 1
  | some .unsupportedOpcode => 2
  | some .stackOverflow => 3
  | some .stackUnderflow => 4
  | some .programCounterOutOfBounds => 5
  | some .dataAddressOutOfBounds => 6
  | some .fontRegionWrite => 7
  | some .keyIndexOutOfRange => 8

/-- The fault record: kind, address, opcode (R24, R162). -/
def readFaultRecord (s : State) : Option Fault × Word × Word := (s.faultKind, s.faultAddr, s.faultOpcode)

end Sys2Proof.Machine
end

