-- ==== Sys2Proof/Machine/Session.lean ====
section
/-! DEFINITION. The whole command interface (spec/00_scope.md R8, spec/60_exceptions.md R158, R159) with
the boot order (spec/70_reset_and_hazards.md R171, R172): which command has a meaning when.  A run of
the core under a host is a list of commands. -/

namespace Sys2Proof.Machine

/-- The five commands that change state (R8, R158). -/
inductive Command where
  | initialise
  | loadProgram (bytes : List Byte)
  | step
  | tickTimers
  | setKey (k : Key) (pressed : Bool)
  deriving DecidableEq, Repr

/-- The core under its host.  The phase is the model's record of the boot order (log entry 7). -/
inductive Session where
  /-- Before the first `initialize` "no state has a defined value" (R172); only the model's count of
  random draws stands (log entry 2). -/
  | off (draws : Nat)
  /-- After `initialize`, before `loadProgram` and the first `step`: `loadProgram` is legal (R171). -/
  | booted (s : State)
  /-- After `loadProgram` or the first `step`: `loadProgram` has no meaning (R171, D24). -/
  | started (s : State)
  deriving DecidableEq, Repr

/-- The outcome of a `step` command, as the session's. -/
def afterStep : StepOutcome → Host.Outcome Session Fault Refusal
  | .next s => .next (.started s)
  | .fault k => .fault k
  | .refused r => .refused r

/-- One command, one atomic transition (R8, R40), of the core with the font given (R4). -/
def Session.command (font : Font) : Session → Command → Host.Outcome Session Fault Refusal
  | .off d, .initialise => .next (.booted { State.resetWith font with draws := d })
  | .off _, _ => .refused .commandBeforeInitialize
  | .booted s, .initialise => .next (.booted (Sys2Proof.Machine.initialise font s))
  | .booted s, .loadProgram bytes => .next (.started (Sys2Proof.Machine.loadProgram bytes s))
  | .booted s, .step => afterStep (Sys2Proof.Machine.step s)
  | .booted s, .tickTimers => .next (.booted (Sys2Proof.Machine.tickTimers s))
  | .booted s, .setKey k p => .next (.booted (Sys2Proof.Machine.setKey k p s))
  | .started s, .initialise => .next (.booted (Sys2Proof.Machine.initialise font s))
  | .started _, .loadProgram _ => .refused .loadOutsideBoot
  | .started s, .step => afterStep (Sys2Proof.Machine.step s)
  | .started s, .tickTimers => .next (.started (Sys2Proof.Machine.tickTimers s))
  | .started s, .setKey k p => .next (.started (Sys2Proof.Machine.setKey k p s))

/-- A run under a host: the commands in the order they arrive, any interleaving being legal (R159). -/
def Session.run (font : Font) : Session → List Command → Host.Outcome Session Fault Refusal
  | σ, [] => .next σ
  | σ, c :: cs =>
    match σ.command font c with
    | .next σ' => Session.run font σ' cs
    | .fault k => .fault k
    | .refused r => .refused r

end Sys2Proof.Machine
end

