-- ==== Sys2Proof/Safety.lean ====
section
/-! DEFINITION. The vocabulary of the claims: the frame of a step, a recorded fault, the invariant of
the core, what a safe state is, and closed forms for the draw and for nested calls. -/

namespace Sys2Proof.Machine

/-! ### Frames -/

/-- The parts of the state (spec/10_state.md R10 to R24, and the model's own `draws`). -/
inductive Part where
  | mem | V | I | pc | stack | sp | DT | ST | fb | key | status | waitX | fault | draws
  deriving DecidableEq, Repr

/-- A part is as it was.  Memory is compared through the read of one byte. -/
def Keeps : Part → State → State → Prop
  | .mem, s, t => ∀ a, t.mem.read a = s.mem.read a
  | .V, s, t => ∀ k, t.getV k = s.getV k
  | .I, s, t => t.I = s.I
  | .pc, s, t => t.pc = s.pc
  | .stack, s, t => ∀ j : Fin 16, t.stack[j.val] = s.stack[j.val]
  | .sp, s, t => t.sp = s.sp
  | .DT, s, t => t.DT = s.DT
  | .ST, s, t => t.ST = s.ST
  | .fb, s, t => t.fb = s.fb
  | .key, s, t => t.key = s.key
  | .status, s, t => t.status = s.status
  | .waitX, s, t => t.waitX = s.waitX
  | .fault, s, t =>
    t.faultKind = s.faultKind ∧ t.faultAddr = s.faultAddr ∧ t.faultOpcode = s.faultOpcode
  | .draws, s, t => t.draws = s.draws

/-- Every part that is not named is as it was. -/
def KeepsAllBut (changed : List Part) (s t : State) : Prop := ∀ p, p ∉ changed → Keeps p s t

/-- Every V register that is not named is as it was. -/
def KeepsRegsBut (changed : List Reg) (s t : State) : Prop :=
  ∀ k, k ∉ changed → t.getV k = s.getV k

/-- Every byte of memory outside `[base, base + count)` is as it was. -/
def KeepsMemoryOutside (base count : Nat) (s t : State) : Prop :=
  ∀ a, ¬ (base ≤ a ∧ a < base + count) → t.mem.read a = s.mem.read a

/-! ### Faults -/

/-- `t` is `s` with the fault taken as R150 says: status, kind, address, opcode, and nothing else. -/
def FaultTaken (k : Fault) (opcode : Word) (s t : State) : Prop :=
  t.status = .faulted ∧ t.faultKind = some k ∧ t.faultAddr = s.pc ∧ t.faultOpcode = opcode ∧
    KeepsAllBut [.status, .fault] s t

/-- "faults at the next fetch" (41_control_flow.md R75, R76, R78, R82): a Running core whose `pc` is above
0xFFE takes ProgramCounterOutOfBounds in its next step. -/
def FaultsAtTheFetchPastMemory (t : State) : Prop :=
  t.status = .running → 0xFFE < t.pc.toNat →
    ∃ u, step t = .next u ∧ FaultTaken .programCounterOutOfBounds 0 t u

/-- A safe state: no fault has ended the run (R150, R151). -/
def State.Safe (s : State) : Prop := s.status ≠ .faulted

/-! ### The invariant -/

/-- What holds of the core with the font given in every state a run reaches. -/
structure CoreInv (font : Font) (s : State) : Prop where
  /-- memory keeps its canonical form, inside the 4096 bytes (R10) -/
  memory : s.mem.wf
  /-- the font is "never overwritten by program execution" (R11) -/
  font : ∀ j : Fin 80, s.mem.read (Config.fontBase + j.val) = font[j.val]
  /-- "the largest value `pc` can ever hold is 0x10FE" (R15) -/
  pc : s.pc.toNat ≤ 0x10FE
  /-- a stack entry is 0 or an earlier `pc_next`, at most 0x1000 (R16, R75) -/
  stack : ∀ j : Fin 16, (s.stack[j.val]).toNat ≤ 0x1000
  /-- while waiting, `pc` addresses the LD Vx,K whose register `wait_x` holds (R23, R68) -/
  waiting : s.status = .waitingForKey →
    s.pc.toNat ≤ 0xFFE ∧ decodeWord (s.mem.readWord s.pc.toNat) = some (.ldVxK s.waitX)
  /-- the fault record is empty unless the status is Faulted (R24) -/
  noRecord : s.status ≠ .faulted → s.faultKind = none ∧ s.faultAddr = 0 ∧ s.faultOpcode = 0
  /-- a Faulted core holds the kind of its fault (R24) -/
  record : s.status = .faulted → s.faultKind ≠ none

/-- The invariant of the core under its host: between `initialize` and `loadProgram` it is Running. -/
def Session.Inv (font : Font) : Session → Prop
  | .off _ => True
  | .booted s => CoreInv font s ∧ s.status = .running
  | .started s => CoreInv font s

/-! ### The order of the commands -/

/-- "Before `initialize` ... no other command has a meaning" (70_reset_and_hazards.md R172): the first
command, if there is one, is `initialize`. -/
def StartsWithInitialise (cs : List Command) : Prop := ∀ c rest, cs = c :: rest → c = .initialise

/-- "legal once, after `initialize` and before the first `step`" (70_reset_and_hazards.md R171, D24): from
the latest `initialize` to a `loadProgram` there is neither a `step` nor another `loadProgram`. -/
def LoadsInTheirWindow (cs : List Command) : Prop :=
  ∀ before bytes after, cs = before ++ .loadProgram bytes :: after →
    ∃ a b, before = a ++ .initialise :: b ∧ ∀ c ∈ b, c ≠ .step ∧ ∀ bytes', c ≠ .loadProgram bytes'

/-! ### Closed forms -/

/-- The pixel the sprite of a DRW has at column X, row Y: rows `n` from `V[y]` down, columns eight from
`V[x]` right, bit 7 leftmost, no wrap (R121). -/
def spritePixel (s : State) (x y : Reg) (n : Nibble) (X Y : Nat) : Bool :=
  let px := (s.getV x).toNat
  let py := (s.getV y).toNat
  decide (px ≤ X ∧ X < px + 8 ∧ py ≤ Y ∧ Y < py + n.toNat) &&
    (s.mem.read (s.I.toNat + (Y - py))).getLsbD (7 - (X - px))

/-- The instructions of a list, one after the other, each at the state the one before it left. -/
def execAll : List Instr → State → StepOutcome
  | [], s => .next s
  | i :: is, s =>
    match exec i s with
    | .next t => execAll is t
    | .fault k => .fault k
    | .refused r => .refused r

/-- Where the j-th of a list of nested calls stands: the first at `pc`, each later one at the target
of the call before it. -/
def callSite (pc : Word) (targets : List Addr12) : Nat → Word
  | 0 => pc
  | j + 1 => target (targets.getD j 0)

/-- Both states of two runs, part by part, but for the sound timer. -/
def AgreeButST (s t : State) : Prop := { s with ST := 0 } = { t with ST := 0 }

/-- The words of spec/30_encoding.md R60: no instruction. -/
def UnsupportedWord (op : Word) : Prop :=
  let d := fieldsOf op
  (d.f = 0x0 ∧ op ≠ 0x00E0 ∧ op ≠ 0x00EE ∧ op ≠ 0x00FD) ∨
  (d.f = 0x5 ∧ d.n ≠ 0) ∨
  (d.f = 0x8 ∧ d.n ∈ ([0x8, 0x9, 0xA, 0xB, 0xC, 0xD, 0xF] : List Nibble)) ∨
  (d.f = 0x9 ∧ d.n ≠ 0) ∨
  (d.f = 0xE ∧ d.nn ∉ ([0x9E, 0xA1] : List Byte)) ∨
  (d.f = 0xF ∧ d.nn ∉ ([0x07, 0x0A, 0x15, 0x18, 0x1E, 0x29, 0x33, 0x55, 0x65] : List Byte))

end Sys2Proof.Machine
end

