-- ==== Sys2Proof/Certificates/Slice0/Obligations.lean ====
section
/-! DEFINITION. The statements for the provers, one `def Obligations.<Name> : Prop` each, in the order of
OBLIGATIONS.json.  Where a clause rests on a decision of spec/92_eei_decisions.md (D<n>), which the spec
marks as its own choice, the docstring names the decision. -/

open Sys2Proof Sys2Proof.Machine

/-! ### Reset -/

/-- spec/10_state.md R27: "`initialize` puts every piece of state to the value below", whatever the font
(the argument `FONT` of R4); `State.reset` is the state it gives with the default font (log entry 4). -/
def Obligations.ResetValues : Prop :=
  ∀ (font : Font) (s : State),
    (∀ j : Fin 80, (initialise font s).mem.read j.val = font[j.val]) ∧
    (∀ a, 0x50 ≤ a → a ≤ 0xFFF → (initialise font s).mem.read a = 0) ∧
    (∀ x, (initialise font s).getV x = 0) ∧ (initialise font s).I = 0 ∧
    (initialise font s).pc = 0x200 ∧
    (∀ j : Fin 16, (initialise font s).stack[j.val] = 0) ∧ (initialise font s).sp = 0 ∧
    (initialise font s).DT = 0 ∧ (initialise font s).ST = 0 ∧
    (∀ (Y : Fin 32) (X : Fin 64), (initialise font s).fb[Y.val][X.val] = false) ∧
    (∀ k : Key, (initialise font s).key[k.val] = false) ∧ (initialise font s).status = .running ∧
    (initialise font s).waitX = 0 ∧ (initialise font s).faultKind = none ∧
    (initialise font s).faultAddr = 0 ∧ (initialise font s).faultOpcode = 0 ∧
    initialise Config.defaultFont State.reset = State.reset

/-! ### Encoding -/

/-- The seven words the source spells out (91_not_in_source.md N1) and one word at least of each of the
sixteen groups of 30_encoding.md R54.  Every word but the seven rests on the conventional map (D2), and
the halt word on D3 (log entry 5). -/
def Obligations.KnownWordsDecode : Prop :=
  decodeWord 0x00EE = some .ret ∧ decodeWord 0x00E0 = some .cls ∧
  decodeWord 0x1200 = some (.jp 0x200) ∧ decodeWord 0x6A0A = some (.ldImm 0xA 0x0A) ∧
  decodeWord 0x7A05 = some (.addImm 0xA 0x05) ∧ decodeWord 0xA050 = some (.ldI 0x050) ∧
  decodeWord 0xD005 = some (.drw 0 0 5) ∧
  decodeWord 0xD125 = some (.drw 1 2 5) ∧ decodeWord 0x00FD = some .halt ∧
  decodeWord 0x2ABC = some (.call 0xABC) ∧ decodeWord 0x3A0B = some (.seImm 0xA 0x0B) ∧
  decodeWord 0x4A0B = some (.sneImm 0xA 0x0B) ∧ decodeWord 0x5120 = some (.seReg 1 2) ∧
  decodeWord 0x812E = some (.shl 1 2) ∧ decodeWord 0x9120 = some (.sneReg 1 2) ∧
  decodeWord 0xBABC = some (.jpV0 0xABC) ∧ decodeWord 0xC30F = some (.rnd 3 0x0F) ∧
  decodeWord 0xE3A1 = some (.sknp 3) ∧ decodeWord 0xF155 = some (.ldMemVx 1)

/-- Decode of encode is the instruction, with every operand at every value (30_encoding.md, D2, D5). -/
def Obligations.DecodeInvertsEncode : Prop :=
  ∀ (i : Instr) (rest : List Byte), decode (encodeBytes i ++ rest) = .ok (i, rest)

/-- Every word that decodes is the word of its instruction: no bit of it is dropped (30_encoding.md). -/
def Obligations.EncodeInvertsDecode : Prop :=
  ∀ (op : Word) (i : Instr), decodeWord op = some i → encode i = op

/-- The words that are no instruction are exactly those 30_encoding.md lists (R60).  The list rests on the
conventional map (D2), on the strict decoding (D5), and on 0x00FD being the halt word (D3, which the
model takes as PRESUMED: log entry 5). -/
def Obligations.RejectedWordsAreThoseListed : Prop :=
  ∀ op : Word, decodeWord op = none ↔ UnsupportedWord op

/-! ### The step -/

/-- A step of a Running core with both bytes of its instruction in memory runs the decoded instruction,
and nothing is added around it: `exec` itself writes `pc` (40_step_cycle.md, 00_scope.md). -/
def Obligations.StepRunsTheDecodedInstruction : Prop :=
  ∀ (s : State) (i : Instr), s.status = .running → s.pc.toNat ≤ 0xFFE →
    decode [s.mem.read s.pc.toNat, s.mem.read (s.pc.toNat + 1)] = .ok (i, []) →
    step s = exec i s

/-- 60_exceptions.md R142: "Records `fault_opcode` = the word, `fault_addr` = its address", and
40_step_cycle.md R70: "No state changes except the run status and the fault record". -/
def Obligations.UnsupportedWordFaults : Prop :=
  ∀ s : State, s.status = .running → s.pc.toNat ≤ 0xFFE →
    decodeWord (s.mem.read s.pc.toNat ++ s.mem.read (s.pc.toNat + 1)) = none →
    ∃ t, step s = .next t ∧ FaultTaken .unsupportedOpcode
      (s.mem.read s.pc.toNat ++ s.mem.read (s.pc.toNat + 1)) s t

/-- A fetch above 0xFFE faults, records opcode 0 and changes nothing else (D19, D21). -/
def Obligations.FetchPastMemoryFaults : Prop :=
  ∀ s : State, s.status = .running → 0xFFE < s.pc.toNat →
    ∃ t, step s = .next t ∧ FaultTaken .programCounterOutOfBounds 0 s t

/-- A Halted or Faulted core is left as it is by every step (D22). -/
def Obligations.StepIdleAfterTheEnd : Prop :=
  ∀ s : State, s.status = .halted ∨ s.status = .faulted → step s = .next s

/-- A step in WaitingForKey (40_step_cycle.md): with no key down nothing changes; with a key down a
pressed key goes to `V[wait_x]`, `pc` advances and the core runs (level test and `KeySelect`: D17). -/
def Obligations.StepOfAWaitingCore : Prop :=
  ∀ s : State, s.status = .waitingForKey →
    ((∀ k : Key, s.key[k.val] = false) → step s = .next s) ∧
    (∀ k : Key, s.key[k.val] = true →
      ∃ (t : State) (j : Key), step s = .next t ∧ s.key[j.val] = true ∧
        (t.getV s.waitX).toNat = j.val ∧ t.pc = s.pc + 2 ∧ t.status = .running ∧
        KeepsRegsBut [s.waitX] s t ∧ KeepsAllBut [.V, .pc, .status] s t)

/-- Every step answers a next state; none ends in the host's fault or refusal outcome (40_step_cycle.md;
a fault of the spec is the status Faulted: log entry 1). -/
def Obligations.StepAlwaysAnswersNext : Prop :=
  ∀ s : State, ∃ t, step s = .next t

/-- The transitions of the run status (10_state.md R22): from Running to Faulted by a fault taken (its
precision is D19), and else to Running, WaitingForKey or Halted with no fault recorded; from WaitingForKey
only to itself or Running; from Halted and Faulted nowhere (D22). -/
def Obligations.StatusTransitions : Prop :=
  ∀ s t : State, step s = .next t →
    (s.status = .running →
      (∃ k op, FaultTaken k op s t) ∨
      ((t.status = .running ∨ t.status = .waitingForKey ∨ t.status = .halted) ∧
        Keeps .fault s t)) ∧
    (s.status = .waitingForKey → t.status = .waitingForKey ∨ t.status = .running) ∧
    (s.status = .halted → t.status = .halted) ∧ (s.status = .faulted → t.status = .faulted)

/-- A core becomes Halted by a step exactly when it runs HALT ("set true only by the explicit "quit"
opcode", 10_state.md; the word is D3), and enters WaitingForKey exactly when it runs LD Vx,K with no key
down, `wait_x` then naming its register (10_state.md, 45_keypad_timers.md; D17). -/
def Obligations.HaltAndWaitHaveOneCause : Prop :=
  ∀ s t : State, step s = .next t →
    (s.status ≠ .halted →
      (t.status = .halted ↔
        s.status = .running ∧ s.pc.toNat ≤ 0xFFE ∧
          decodeWord (s.mem.readWord s.pc.toNat) = some .halt)) ∧
    (s.status ≠ .waitingForKey →
      (t.status = .waitingForKey ↔
        s.status = .running ∧ s.pc.toNat ≤ 0xFFE ∧ (∀ k : Key, s.key[k.val] = false) ∧
          decodeWord (s.mem.readWord s.pc.toNat) = some (.ldVxK t.waitX)))

/-- Whatever the instruction, a fault it raises records its word and its address, and changes nothing
but the status and the record (D19, D20). -/
def Obligations.InstructionFaultsArePrecise : Prop :=
  ∀ (i : Instr) (s t : State), exec i s = .next t → s.status ≠ .faulted → t.status = .faulted →
    ∃ k, FaultTaken k (encode i) s t

/-- A word placed where the core fetches is run by the very next step (log entry 6). -/
def Obligations.PlacedWordRunsNext : Prop :=
  ∀ (s : State) (w : Nat) (i : Instr), w < 65536 → decodeTableWord 16 w = some i →
    step (s.withFetchWord 16 w) = exec i (s.withFetchWord 16 w)

/-! ### Who writes what -/

/-- No step writes a key latch (10_state.md: "The latches are written only by `setKey`"). -/
def Obligations.StepLeavesKeypadAlone : Prop :=
  ∀ s t : State, step s = .next t → t.key = s.key

/-- A step changes `DT` only by LD DT,Vx and `ST` only by LD ST,Vx: it never ticks (10_state.md,
60_exceptions.md: "the core never ticks on its own as part of a `step`"). -/
def Obligations.TimersSetOnlyByTheirInstructions : Prop :=
  ∀ s t : State, step s = .next t →
    (t.DT ≠ s.DT → s.status = .running ∧
      ∃ x, decodeWord (s.mem.readWord s.pc.toNat) = some (.ldDTVx x) ∧ t.DT = s.getV x) ∧
    (t.ST ≠ s.ST → s.status = .running ∧
      ∃ x, decodeWord (s.mem.readWord s.pc.toNat) = some (.ldSTVx x) ∧ t.ST = s.getV x)

/-- Only CALL writes the stack, and only CALL and RET change `sp`, by one (10_state.md). -/
def Obligations.StackWrittenOnlyByCallAndRet : Prop :=
  ∀ s t : State, step s = .next t →
    (t.stack ≠ s.stack →
      ∃ nnn, decodeWord (s.mem.readWord s.pc.toNat) = some (.call nnn) ∧ t.sp.val = s.sp.val + 1) ∧
    (t.sp ≠ s.sp →
      (∃ nnn, decodeWord (s.mem.readWord s.pc.toNat) = some (.call nnn) ∧ t.sp.val = s.sp.val + 1) ∨
      (decodeWord (s.mem.readWord s.pc.toNat) = some .ret ∧ s.sp.val = t.sp.val + 1))

/-- A step changes a byte of memory only by LD B,Vx, within the three bytes at `I`, or by LD [I],Vx,
within the `x + 1` bytes at `I` (10_state.md, 20_memory.md). -/
def Obligations.MemoryWrittenOnlyByStores : Prop :=
  ∀ (s t : State) (a : Nat), step s = .next t → t.mem.read a ≠ s.mem.read a →
    (∃ x, decodeWord (s.mem.readWord s.pc.toNat) = some (.ldB x) ∧
      s.I.toNat ≤ a ∧ a < s.I.toNat + 3) ∨
    (∃ x : Reg, decodeWord (s.mem.readWord s.pc.toNat) = some (.ldMemVx x) ∧
      s.I.toNat ≤ a ∧ a < s.I.toNat + (x.val + 1))

/-- The font is "never overwritten by program execution" (10_state.md; by the fault of D11). -/
def Obligations.FontNeverOverwritten : Prop :=
  ∀ (s t : State) (a : Nat), step s = .next t → a < 0x50 → t.mem.read a = s.mem.read a

/-- Only LD I, ADD I and LD F change `I`, so no load, store or draw moves it (10_state.md; D15), and only
CLS and DRW change the framebuffer (10_state.md). -/
def Obligations.IndexAndScreenWriters : Prop :=
  ∀ s t : State, step s = .next t →
    (t.I ≠ s.I →
      (∃ nnn, decodeWord (s.mem.readWord s.pc.toNat) = some (.ldI nnn)) ∨
      (∃ x, decodeWord (s.mem.readWord s.pc.toNat) = some (.addI x)) ∨
      (∃ x, decodeWord (s.mem.readWord s.pc.toNat) = some (.ldF x))) ∧
    (t.fb ≠ s.fb →
      decodeWord (s.mem.readWord s.pc.toNat) = some .cls ∨
      (∃ x y n, decodeWord (s.mem.readWord s.pc.toNat) = some (.drw x y n)))

/-- An instruction that is none of the flag writers changes VF only as its own destination: `x` = 15
in a one-register form, or VF inside the block of LD Vx,[I] (10_state.md). -/
def Obligations.OthersWriteVFOnlyAsDestination : Prop :=
  ∀ (i : Instr) (s t : State), exec i s = .next t → t.getV VF ≠ s.getV VF →
    (∃ x y, i = .addReg x y ∨ i = .subReg x y ∨ i = .subn x y ∨ i = .shr x y ∨ i = .shl x y) ∨
    (∃ x, i = .addI x) ∨ (∃ x y n, i = .drw x y n) ∨
    (∃ nn, i = .ldImm VF nn ∨ i = .addImm VF nn ∨ i = .rnd VF nn) ∨
    (∃ y, i = .ldReg VF y ∨ i = .orReg VF y ∨ i = .andReg VF y ∨ i = .xorReg VF y) ∨
    i = .ldVxDT VF ∨ i = .ldVxK VF ∨ i = .ldVxMem VF

/-- "no instruction reads" the sound timer (10_state.md R19): two cores that differ in `ST` alone step to
states that differ in `ST` at most.  The host still reads `ST` (R162).  The two cores agree in `draws`
too, so that after RND they hold the same byte because the model names it by that counter (log entry 2,
DESIGN CHOICE): of RND the statement says something of the model alone. -/
def Obligations.NoStepReadsTheSoundTimer : Prop :=
  ∀ s s' : State, AgreeButST s s' →
    ∃ t t', step s = .next t ∧ step s' = .next t' ∧ AgreeButST t t'

/-! ### The invariant -/

/-- The invariant holds after `initialize`, with any font, and at reset with the default font. -/
def Obligations.InvHoldsAtReset : Prop :=
  (∀ font : Font, CoreInv font (State.resetWith font)) ∧ CoreInv Config.defaultFont State.reset

/-- From every state that meets the invariant, a step gives one that meets it. -/
def Obligations.StepKeepsInv : Prop :=
  ∀ (font : Font) (s t : State), CoreInv font s → step s = .next t → CoreInv font t

/-- Which command is accepted when, and that every accepted one keeps the invariant of the core under its
host, whatever the font: before `initialize` that one alone is accepted, after it all five, after
`loadProgram` or the first `step` all but `loadProgram`; the rest are refused (R159, R171, R172; I11, D24;
log entry 7). -/
def Obligations.CommandsKeepInv : Prop :=
  ∀ font : Font,
    (∀ d, ∃ τ, (Session.off d).command font .initialise = .next τ ∧ τ.Inv font) ∧
    (∀ d c, c ≠ .initialise → (Session.off d).command font c = .refused .commandBeforeInitialize) ∧
    (∀ s c, ∃ τ, (Session.booted s).command font c = .next τ ∧
      ((Session.booted s).Inv font → τ.Inv font)) ∧
    (∀ s c, (∀ bytes, c ≠ .loadProgram bytes) → ∃ τ, (Session.started s).command font c = .next τ ∧
      ((Session.started s).Inv font → τ.Inv font)) ∧
    (∀ s bytes, (Session.started s).command font (.loadProgram bytes) = .refused .loadOutsideBoot)

/-- A host's whole run, from before `initialize` and under every interleaving of commands.  When the
first command is `initialize` and every load falls in its window, the run completes and keeps the
invariant.  When the first command is another one it is refused as such, and when a load falls outside its
window it is refused as that (R159, R171, R172; D24; log entry 7). -/
def Obligations.HostRunsKeepInv : Prop :=
  ∀ (font : Font) (d : Nat) (cs : List Command),
    (StartsWithInitialise cs → LoadsInTheirWindow cs →
      ∃ τ, Session.run font (.off d) cs = .next τ ∧ τ.Inv font) ∧
    (¬ StartsWithInitialise cs →
      Session.run font (.off d) cs = .refused .commandBeforeInitialize) ∧
    (StartsWithInitialise cs → ¬ LoadsInTheirWindow cs →
      Session.run font (.off d) cs = .refused .loadOutsideBoot)

/-! ### Control flow -/

/-- RET (41_control_flow.md R75): the popped entry stays in the stack.  What the next fetch does with a
`pc` above 0xFFE (kind, opcode 0, nothing else changed) is 40_step_cycle.md R66 and 60_exceptions.md R150
with the decisions D19 and D21 (log entry 13). -/
def Obligations.ReturnPopsTheStack : Prop :=
  ∀ s : State,
    (∀ j : Fin 16, s.sp.val = j.val + 1 →
      ∃ t, exec .ret s = .next t ∧ t.sp.val = j.val ∧ t.pc = s.stack[j.val] ∧
        KeepsAllBut [.pc, .sp] s t ∧ FaultsAtTheFetchPastMemory t) ∧
    (s.sp.val = 0 → ∃ t, exec .ret s = .next t ∧ FaultTaken .stackUnderflow 0x00EE s t)

/-- JP nnn (41_control_flow.md R76).  What the next fetch does with a `pc` above 0xFFE is 40_step_cycle.md
R66 and 60_exceptions.md R150 with the decisions D19 and D21 (log entry 13). -/
def Obligations.JumpSetsPc : Prop :=
  ∀ (nnn : Addr12) (s : State),
    ∃ t, exec (.jp nnn) s = .next t ∧ t.pc.toNat = nnn.toNat ∧ KeepsAllBut [.pc] s t ∧
      FaultsAtTheFetchPastMemory t

/-- CALL nnn (41_control_flow.md R77). -/
def Obligations.CallPushesReturnAddress : Prop :=
  ∀ (nnn : Addr12) (s : State),
    (∀ j : Fin 16, s.sp.val = j.val →
      ∃ t, exec (.call nnn) s = .next t ∧ t.stack[j.val] = s.pc + 2 ∧
        (∀ k : Fin 16, k ≠ j → t.stack[k.val] = s.stack[k.val]) ∧ t.sp.val = j.val + 1 ∧
        t.pc.toNat = nnn.toNat ∧ KeepsAllBut [.pc, .sp, .stack] s t) ∧
    (s.sp.val = 16 →
      ∃ t, exec (.call nnn) s = .next t ∧ FaultTaken .stackOverflow (encode (.call nnn)) s t)

/-- SE Vx,nn and SNE Vx,nn (41_control_flow.md R78, R79).  What the next fetch does with a `pc` above
0xFFE is 40_step_cycle.md R66 and 60_exceptions.md R150 with the decisions D19 and D21 (log entry 13). -/
def Obligations.SkipOnImmediate : Prop :=
  ∀ (x : Reg) (nn : Byte) (s : State),
    (∃ t, exec (.seImm x nn) s = .next t ∧
      (s.getV x = nn → t.pc = s.pc + 4) ∧ (s.getV x ≠ nn → t.pc = s.pc + 2) ∧
      KeepsAllBut [.pc] s t ∧ FaultsAtTheFetchPastMemory t) ∧
    (∃ t, exec (.sneImm x nn) s = .next t ∧
      (s.getV x ≠ nn → t.pc = s.pc + 4) ∧ (s.getV x = nn → t.pc = s.pc + 2) ∧
      KeepsAllBut [.pc] s t ∧ FaultsAtTheFetchPastMemory t)

/-- SE Vx,Vy and SNE Vx,Vy (41_control_flow.md R80, R81).  What the next fetch does with a `pc` above
0xFFE is 40_step_cycle.md R66 and 60_exceptions.md R150 with the decisions D19 and D21 (log entry 13). -/
def Obligations.SkipOnRegister : Prop :=
  ∀ (x y : Reg) (s : State),
    (∃ t, exec (.seReg x y) s = .next t ∧
      (s.getV x = s.getV y → t.pc = s.pc + 4) ∧ (s.getV x ≠ s.getV y → t.pc = s.pc + 2) ∧
      KeepsAllBut [.pc] s t ∧ FaultsAtTheFetchPastMemory t) ∧
    (∃ t, exec (.sneReg x y) s = .next t ∧
      (s.getV x ≠ s.getV y → t.pc = s.pc + 4) ∧ (s.getV x = s.getV y → t.pc = s.pc + 2) ∧
      KeepsAllBut [.pc] s t ∧ FaultsAtTheFetchPastMemory t)

/-- JP V0,nnn (41_control_flow.md R82): the sum is not wrapped into the 12-bit space.  What the next fetch
does with a `pc` above 0xFFE is 40_step_cycle.md R66 and 60_exceptions.md R150 with the decisions D19 and
D21 (log entry 13). -/
def Obligations.JumpPlusV0 : Prop :=
  ∀ (nnn : Addr12) (s : State),
    ∃ t, exec (.jpV0 nnn) s = .next t ∧ t.pc.toNat = nnn.toNat + (s.getV 0).toNat ∧
      KeepsAllBut [.pc] s t ∧ FaultsAtTheFetchPastMemory t

/-- HALT (40_step_cycle.md; `pc` takes the generic advance by D23): a normal end, no fault recorded. -/
def Obligations.HaltEndsTheRun : Prop :=
  ∀ s : State,
    ∃ t, exec .halt s = .next t ∧ t.status = .halted ∧ t.pc = s.pc + 2 ∧
      KeepsAllBut [.status, .pc] s t

/-- "Stack discipline" (41_control_flow.md R83 (e)): N nested calls, N within the room left, then k ≤ N
returns, come back after the call sites in reverse order; from an empty stack the (N+1)-th return
faults with StackUnderflow. -/
def Obligations.CallsAndReturnsAreLifo : Prop :=
  ∀ (targets : List Addr12) (s : State), s.sp.val + targets.length ≤ 16 →
    ∃ u, execAll (targets.map .call) s = .next u ∧ u.sp.val = s.sp.val + targets.length ∧
      (∀ k, k ≤ targets.length →
        ∃ t, execAll (List.replicate k .ret) u = .next t ∧
          t.sp.val = s.sp.val + (targets.length - k) ∧ t.status = s.status ∧
          (0 < k → t.pc = callSite s.pc targets (targets.length - k) + 2)) ∧
      (s.sp.val = 0 →
        ∃ t, execAll (List.replicate (targets.length + 1) .ret) u = .next t ∧
          t.status = .faulted ∧ t.faultKind = some .stackUnderflow ∧ t.faultOpcode = 0x00EE)

/-! ### Register load and arithmetic -/

/-- LD Vx,nn and LD Vx,Vy (42_alu.md R90, R92). -/
def Obligations.LoadsSetVx : Prop :=
  ∀ (x y : Reg) (nn : Byte) (s : State),
    (∃ t, exec (.ldImm x nn) s = .next t ∧ t.getV x = nn ∧ t.pc = s.pc + 2 ∧
      KeepsRegsBut [x] s t ∧ KeepsAllBut [.V, .pc] s t) ∧
    (∃ t, exec (.ldReg x y) s = .next t ∧ t.getV x = s.getV y ∧ t.pc = s.pc + 2 ∧
      KeepsRegsBut [x] s t ∧ KeepsAllBut [.V, .pc] s t)

/-- ADD Vx,nn (42_alu.md R91): modulo 256, and VF is not written unless it is the destination. -/
def Obligations.AddImmediateWraps : Prop :=
  ∀ (x : Reg) (nn : Byte) (s : State),
    ∃ t, exec (.addImm x nn) s = .next t ∧
      (t.getV x).toNat = ((s.getV x).toNat + nn.toNat) % 256 ∧ t.pc = s.pc + 2 ∧
      KeepsRegsBut [x] s t ∧ KeepsAllBut [.V, .pc] s t

/-- OR, AND and XOR (42_alu.md R93, R94, R95), bit by bit; VF is not written unless it is the
destination. -/
def Obligations.LogicIsBitwise : Prop :=
  ∀ (x y : Reg) (s : State),
    (∃ t, exec (.orReg x y) s = .next t ∧
      (∀ i, (t.getV x).getLsbD i = ((s.getV x).getLsbD i || (s.getV y).getLsbD i)) ∧
      t.pc = s.pc + 2 ∧ KeepsRegsBut [x] s t ∧ KeepsAllBut [.V, .pc] s t) ∧
    (∃ t, exec (.andReg x y) s = .next t ∧
      (∀ i, (t.getV x).getLsbD i = ((s.getV x).getLsbD i && (s.getV y).getLsbD i)) ∧
      t.pc = s.pc + 2 ∧ KeepsRegsBut [x] s t ∧ KeepsAllBut [.V, .pc] s t) ∧
    (∃ t, exec (.xorReg x y) s = .next t ∧
      (∀ i, (t.getV x).getLsbD i = ((s.getV x).getLsbD i ^^ (s.getV y).getLsbD i)) ∧
      t.pc = s.pc + 2 ∧ KeepsRegsBut [x] s t ∧ KeepsAllBut [.V, .pc] s t)

/-- ADD Vx,Vy (42_alu.md): sum modulo 256 and carry, from the operands before any write; the flag is
written last (D13), so with `x` = 15 it is what VF holds. -/
def Obligations.AddSetsCarry : Prop :=
  ∀ (x y : Reg) (s : State),
    ∃ t, exec (.addReg x y) s = .next t ∧
      (x ≠ VF → (t.getV x).toNat = ((s.getV x).toNat + (s.getV y).toNat) % 256) ∧
      (t.getV VF).toNat = (if (s.getV x).toNat + (s.getV y).toNat > 255 then 1 else 0) ∧
      t.pc = s.pc + 2 ∧ KeepsRegsBut [x, VF] s t ∧ KeepsAllBut [.V, .pc] s t

/-- SUB and SUBN (42_alu.md): difference modulo 256 and no-borrow, from the operands before any write;
the flag is written last (D13). -/
def Obligations.SubtractSetsNoBorrow : Prop :=
  ∀ (x y : Reg) (s : State),
    (∃ t, exec (.subReg x y) s = .next t ∧
      (x ≠ VF → ((t.getV x).toNat : Int) = ((s.getV x).toNat - (s.getV y).toNat : Int) % 256) ∧
      (t.getV VF).toNat = (if (s.getV x).toNat ≥ (s.getV y).toNat then 1 else 0) ∧
      t.pc = s.pc + 2 ∧ KeepsRegsBut [x, VF] s t ∧ KeepsAllBut [.V, .pc] s t) ∧
    (∃ t, exec (.subn x y) s = .next t ∧
      (x ≠ VF → ((t.getV x).toNat : Int) = ((s.getV y).toNat - (s.getV x).toNat : Int) % 256) ∧
      (t.getV VF).toNat = (if (s.getV y).toNat ≥ (s.getV x).toNat then 1 else 0) ∧
      t.pc = s.pc + 2 ∧ KeepsRegsBut [x, VF] s t ∧ KeepsAllBut [.V, .pc] s t)

/-- SHR and SHL (42_alu.md): in place, logical, the bit shifted out to VF, written last (D13); no `y`
matters, Vy itself is kept. -/
def Obligations.ShiftsMoveOutBitToVF : Prop :=
  ∀ (x y : Reg) (s : State),
    (∃ t, exec (.shr x y) s = .next t ∧
      (x ≠ VF → (t.getV x).toNat = (s.getV x).toNat / 2) ∧
      (t.getV VF).toNat = (s.getV x).toNat % 2 ∧
      t.pc = s.pc + 2 ∧ KeepsRegsBut [x, VF] s t ∧ KeepsAllBut [.V, .pc] s t) ∧
    (∃ t, exec (.shl x y) s = .next t ∧
      (x ≠ VF → (t.getV x).toNat = (s.getV x).toNat * 2 % 256) ∧
      (t.getV VF).toNat = (s.getV x).toNat / 128 ∧
      t.pc = s.pc + 2 ∧ KeepsRegsBut [x, VF] s t ∧ KeepsAllBut [.V, .pc] s t)

/-- RND (42_alu.md; the free byte is D18 and log entry 2): the byte `r` drawn is masked by `nn`, and the
draw is used up.  The statement holds whatever byte is drawn. -/
def Obligations.RandomIsMasked : Prop :=
  ∀ (x : Reg) (nn : Byte) (s : State),
    ∃ t, exec (.rnd x nn) s = .next t ∧
      (∀ i, (t.getV x).getLsbD i = ((Config.rand s.draws).getLsbD i && nn.getLsbD i)) ∧
      t.draws = s.draws + 1 ∧ t.pc = s.pc + 2 ∧ KeepsRegsBut [x] s t ∧
      KeepsAllBut [.V, .pc, .draws] s t

/-! ### Index register and memory -/

/-- LD I,nnn (43_index_memory.md R110). -/
def Obligations.LoadIndex : Prop :=
  ∀ (nnn : Addr12) (s : State),
    ∃ t, exec (.ldI nnn) s = .next t ∧ t.I.toNat = nnn.toNat ∧ t.pc = s.pc + 2 ∧
      KeepsAllBut [.I, .pc] s t

/-- ADD I,Vx (43_index_memory.md): modulo 65536, no cut to 12 bits (D14); VF, written last (D13), says
whether the unbounded sum passes 0xFFF. -/
def Obligations.AddIndexSetsOverflow : Prop :=
  ∀ (x : Reg) (s : State),
    ∃ t, exec (.addI x) s = .next t ∧ t.I.toNat = (s.I.toNat + (s.getV x).toNat) % 65536 ∧
      (t.getV VF).toNat = (if s.I.toNat + (s.getV x).toNat > 0xFFF then 1 else 0) ∧
      t.pc = s.pc + 2 ∧ KeepsRegsBut [VF] s t ∧ KeepsAllBut [.V, .I, .pc] s t

/-- LD F,Vx (43_index_memory.md R112): the low nibble counts. -/
def Obligations.FontAddress : Prop :=
  ∀ (x : Reg) (s : State),
    ∃ t, exec (.ldF x) s = .next t ∧ t.I.toNat = 5 * ((s.getV x).toNat % 16) ∧ t.pc = s.pc + 2 ∧
      KeepsAllBut [.I, .pc] s t

/-- After LD F,Vx, in any state of a run, the five bytes at `I` are the glyph of the low nibble of Vx,
read from the font table (95_test_vectors.md SP4), whichever font the core has (the argument `FONT` of
00_scope.md R4). -/
def Obligations.FontAddressFindsTheGlyph : Prop :=
  ∀ (font : Font) (x : Reg) (s : State), CoreInv font s →
    ∃ t, exec (.ldF x) s = .next t ∧
      ∀ r : Fin 5, some (t.mem.read (t.I.toNat + r.val)) =
        font[5 * ((s.getV x).toNat % 16) + r.val]?

/-- LD B,Vx (43_index_memory.md; the fault kinds are D10 and D11): three decimal digits at `I`, and
every other byte as it was. -/
def Obligations.BcdStoresThreeDigits : Prop :=
  ∀ (x : Reg) (s : State),
    (s.I.toNat + 2 ≤ 0xFFF → 0x050 ≤ s.I.toNat →
      ∃ t, exec (.ldB x) s = .next t ∧
        (t.mem.read s.I.toNat).toNat = (s.getV x).toNat / 100 ∧
        (t.mem.read (s.I.toNat + 1)).toNat = (s.getV x).toNat / 10 % 10 ∧
        (t.mem.read (s.I.toNat + 2)).toNat = (s.getV x).toNat % 10 ∧
        KeepsMemoryOutside s.I.toNat 3 s t ∧ t.pc = s.pc + 2 ∧ KeepsAllBut [.mem, .pc] s t) ∧
    (0xFFF < s.I.toNat + 2 →
      ∃ t, exec (.ldB x) s = .next t ∧ FaultTaken .dataAddressOutOfBounds (encode (.ldB x)) s t) ∧
    (s.I.toNat < 0x050 →
      ∃ t, exec (.ldB x) s = .next t ∧ FaultTaken .fontRegionWrite (encode (.ldB x)) s t)

/-- LD [I],Vx (43_index_memory.md; D10, D11, D15): V0..Vx at `I` upward, and every other byte as it
was. -/
def Obligations.DumpStoresV0ToVx : Prop :=
  ∀ (x : Reg) (s : State),
    (s.I.toNat + x.val ≤ 0xFFF → 0x050 ≤ s.I.toNat →
      ∃ t, exec (.ldMemVx x) s = .next t ∧
        (∀ k : Reg, k ≤ x → t.mem.read (s.I.toNat + k.val) = s.getV k) ∧
        KeepsMemoryOutside s.I.toNat (x.val + 1) s t ∧ t.pc = s.pc + 2 ∧
        KeepsAllBut [.mem, .pc] s t) ∧
    (0xFFF < s.I.toNat + x.val →
      ∃ t, exec (.ldMemVx x) s = .next t ∧
        FaultTaken .dataAddressOutOfBounds (encode (.ldMemVx x)) s t) ∧
    (s.I.toNat < 0x050 →
      ∃ t, exec (.ldMemVx x) s = .next t ∧ FaultTaken .fontRegionWrite (encode (.ldMemVx x)) s t)

/-- LD Vx,[I] (43_index_memory.md; D10, D15): V0..Vx from `I` upward, the font readable like any
memory. -/
def Obligations.LoadFillsV0ToVx : Prop :=
  ∀ (x : Reg) (s : State),
    (s.I.toNat + x.val ≤ 0xFFF →
      ∃ t, exec (.ldVxMem x) s = .next t ∧
        (∀ k : Reg, k ≤ x → t.getV k = s.mem.read (s.I.toNat + k.val)) ∧
        (∀ k : Reg, x < k → t.getV k = s.getV k) ∧ t.pc = s.pc + 2 ∧
        KeepsAllBut [.V, .pc] s t) ∧
    (0xFFF < s.I.toNat + x.val →
      ∃ t, exec (.ldVxMem x) s = .next t ∧
        FaultTaken .dataAddressOutOfBounds (encode (.ldVxMem x)) s t)

/-! ### Display -/

/-- CLS (44_display.md R120). -/
def Obligations.ClearUnlightsEveryCell : Prop :=
  ∀ s : State,
    ∃ t, exec .cls s = .next t ∧
      (∀ (Y : Fin 32) (X : Fin 64), t.fb[Y.val][X.val] = false) ∧ t.pc = s.pc + 2 ∧
      KeepsAllBut [.fb, .pc] s t

/-- DRW (44_display.md; D7 bit order, D8 no wrap, D9 checks, D13 coordinates before VF): every cell is
XORed with the sprite's pixel, VF is 1 exactly when a lit cell became unlit, and reading past memory
faults with nothing changed. -/
def Obligations.DrawXorsAndDetectsCollision : Prop :=
  ∀ (x y : Reg) (n : Nibble) (s : State),
    (n.toNat = 0 ∨ s.I.toNat + (n.toNat - 1) ≤ 0xFFF →
      ∃ t, exec (.drw x y n) s = .next t ∧
        (∀ (Y : Fin 32) (X : Fin 64),
          t.fb[Y.val][X.val] = (s.fb[Y.val][X.val] ^^ spritePixel s x y n X.val Y.val)) ∧
        (t.getV VF = 0 ∨ t.getV VF = 1) ∧
        (t.getV VF = 1 ↔ ∃ (Y : Fin 32) (X : Fin 64),
          s.fb[Y.val][X.val] = true ∧ t.fb[Y.val][X.val] = false) ∧
        t.pc = s.pc + 2 ∧ KeepsRegsBut [VF] s t ∧ KeepsAllBut [.V, .fb, .pc] s t) ∧
    (n.toNat ≠ 0 → 0xFFF < s.I.toNat + (n.toNat - 1) →
      ∃ t, exec (.drw x y n) s = .next t ∧
        FaultTaken .dataAddressOutOfBounds (encode (.drw x y n)) s t)

/-- "Draw idempotence under double-XOR" (44_display.md): the same sprite at the same place a second time
(the registers put back, since the first draw may have changed a coordinate held in VF) restores the
framebuffer; VF then "reflects collision with the sprite's own first draw": it is 1 exactly when a pixel
of the sprite fell on a cell of the grid that was unlit before both draws.  So where the sprite falls on
unlit cells alone it is, as R122 (a) says, "1 iff the sprite has at least one 1 bit that falls inside the
grid", and everywhere it is 1 "only if" it has one (95_test_vectors.md, note on SP3; log entry 12). -/
def Obligations.DrawingTwiceRestores : Prop :=
  ∀ (x y : Reg) (n : Nibble) (s : State), n.toNat = 0 ∨ s.I.toNat + (n.toNat - 1) ≤ 0xFFF →
    ∃ t u, exec (.drw x y n) s = .next t ∧ exec (.drw x y n) { t with V := s.V } = .next u ∧
      u.fb = s.fb ∧
      (u.getV VF = 1 ↔ ∃ (Y : Fin 32) (X : Fin 64),
        spritePixel s x y n X.val Y.val = true ∧ s.fb[Y.val][X.val] = false) ∧
      ((∀ (Y : Fin 32) (X : Fin 64), spritePixel s x y n X.val Y.val = true →
          s.fb[Y.val][X.val] = false) →
        (u.getV VF = 1 ↔ ∃ (Y : Fin 32) (X : Fin 64), spritePixel s x y n X.val Y.val = true)) ∧
      (u.getV VF = 1 → ∃ (Y : Fin 32) (X : Fin 64), spritePixel s x y n X.val Y.val = true)

/-- The last clause of 44_display.md R122 (a), word for word: "after the second draw VF = 1 iff the
sprite has at least one 1 bit that falls inside the grid, else 0".  EXPECTED TO FAIL: by R121 a sprite
drawn twice over its own lit image relights it the second time, which is no collision (log entry 12). -/
def Obligations.SecondDrawAlwaysCollides : Prop :=
  ∀ (x y : Reg) (n : Nibble) (s t u : State),
    n.toNat = 0 ∨ s.I.toNat + (n.toNat - 1) ≤ 0xFFF →
    exec (.drw x y n) s = .next t → exec (.drw x y n) { t with V := s.V } = .next u →
    (u.getV VF = 1 ↔ ∃ (Y : Fin 32) (X : Fin 64), spritePixel s x y n X.val Y.val = true)

/-! ### Keypad and timers -/

/-- SKP and SKNP (45_keypad_timers.md; the fault for Vx > 15 is D16). -/
def Obligations.SkipOnKey : Prop :=
  ∀ (x : Reg) (s : State),
    (∀ k : Key, (s.getV x).toNat = k.val →
      (∃ t, exec (.skp x) s = .next t ∧
        t.pc = (if s.key[k.val] = true then s.pc + 4 else s.pc + 2) ∧ KeepsAllBut [.pc] s t) ∧
      (∃ t, exec (.sknp x) s = .next t ∧
        t.pc = (if s.key[k.val] = false then s.pc + 4 else s.pc + 2) ∧ KeepsAllBut [.pc] s t)) ∧
    (15 < (s.getV x).toNat →
      (∃ t, exec (.skp x) s = .next t ∧ FaultTaken .keyIndexOutOfRange (encode (.skp x)) s t) ∧
      (∃ t, exec (.sknp x) s = .next t ∧ FaultTaken .keyIndexOutOfRange (encode (.sknp x)) s t))

/-- LD Vx,DT, LD DT,Vx and LD ST,Vx (45_keypad_timers.md R127, R129, R130). -/
def Obligations.TimerMoves : Prop :=
  ∀ (x : Reg) (s : State),
    (∃ t, exec (.ldVxDT x) s = .next t ∧ t.getV x = s.DT ∧ t.pc = s.pc + 2 ∧
      KeepsRegsBut [x] s t ∧ KeepsAllBut [.V, .pc] s t) ∧
    (∃ t, exec (.ldDTVx x) s = .next t ∧ t.DT = s.getV x ∧ t.pc = s.pc + 2 ∧
      KeepsAllBut [.DT, .pc] s t) ∧
    (∃ t, exec (.ldSTVx x) s = .next t ∧ t.ST = s.getV x ∧ t.pc = s.pc + 2 ∧
      KeepsAllBut [.ST, .pc] s t)

/-- LD Vx,K (45_keypad_timers.md; D17): with a key down it completes at once with a pressed key, and
when that is the only one, with that one; with none down it enters the wait and `pc` stays. -/
def Obligations.KeyWaitCompletesOrWaits : Prop :=
  ∀ (x : Reg) (s : State),
    (∀ k : Key, s.key[k.val] = true →
      ∃ (t : State) (j : Key), exec (.ldVxK x) s = .next t ∧ s.key[j.val] = true ∧
        ((∀ l : Key, s.key[l.val] = true → l = k) → j = k) ∧
        (t.getV x).toNat = j.val ∧ t.pc = s.pc + 2 ∧ KeepsRegsBut [x] s t ∧
        KeepsAllBut [.V, .pc] s t) ∧
    ((∀ k : Key, s.key[k.val] = false) →
      ∃ t, exec (.ldVxK x) s = .next t ∧ t.status = .waitingForKey ∧ t.waitX = x ∧
        KeepsAllBut [.status, .waitX] s t)

/-! ### The host's commands -/

/-- `tickTimers` (60_exceptions.md; in every run status by D29): any number of ticks takes each timer
down by that number, never below 0, and changes nothing else. -/
def Obligations.TicksCountDown : Prop :=
  ∀ (n : Nat) (s : State),
    ((tickTimers^[n]) s).DT.toNat = s.DT.toNat - n ∧
    ((tickTimers^[n]) s).ST.toNat = s.ST.toNat - n ∧
    KeepsAllBut [.DT, .ST] s ((tickTimers^[n]) s)

/-- `setKey` (60_exceptions.md; a 4-bit index by D30): one latch, and nothing else, in every status. -/
def Obligations.SetKeySetsOneLatch : Prop :=
  ∀ (k : Key) (pressed : Bool) (s : State),
    (setKey k pressed s).key[k.val] = pressed ∧
    (∀ j : Key, j ≠ k → (setKey k pressed s).key[j.val] = s.key[j.val]) ∧
    KeepsAllBut [.key] s (setKey k pressed s)

/-- `loadProgram` (70_reset_and_hazards.md, 60_exceptions.md; the status after RomTooLarge is D24): the
bytes from 0x200 up, or RomTooLarge with nothing copied. -/
def Obligations.LoadProgramCopiesOrFaults : Prop :=
  ∀ (bytes : List Byte) (s : State),
    (bytes.length ≤ 0xE00 →
      (∀ i, i < bytes.length → (loadProgram bytes s).mem.read (0x200 + i) = bytes.getD i 0) ∧
      KeepsMemoryOutside 0x200 bytes.length s (loadProgram bytes s) ∧
      KeepsAllBut [.mem] s (loadProgram bytes s)) ∧
    (0xE00 < bytes.length → FaultTaken .romTooLarge 0 s (loadProgram bytes s))

/-- The framebuffer accessor (60_exceptions.md): 2048 cells, element `64*Y + X` is `fb[Y][X]`. -/
def Obligations.FramebufferReadsRowMajor : Prop :=
  ∀ s : State, (readFramebuffer s).length = 2048 ∧
    ∀ (Y : Fin 32) (X : Fin 64), (readFramebuffer s)[64 * Y.val + X.val]? = some s.fb[Y.val][X.val]
end

