-- ==== Sys2Proof/Laws/Decode.lean ====
section
/-! SUPPORT. The laws of the encoding: the bytes of a word, and the fields of a word of each format. -/

namespace Sys2Proof

/-! ### The bits of a word put together -/

theorem bit_wordOfBytes (hi lo : Byte) (i : Nat) :
    (wordOfBytes hi lo).getLsbD i = if i < 8 then lo.getLsbD i else hi.getLsbD (i - 8) := by
  have h : (wordOfBytes hi lo).getLsbD i = BitVec.getLsbD (w := 8 + 8) (hi ++ lo) i := rfl
  rw [h, BitVec.getLsbD_append]

theorem bit_wordNNN (f : Nibble) (nnn : Addr12) (i : Nat) :
    (wordNNN f nnn).getLsbD i = if i < 12 then nnn.getLsbD i else f.getLsbD (i - 12) := by
  have h : (wordNNN f nnn).getLsbD i = BitVec.getLsbD (w := 4 + 12) (f ++ nnn) i := rfl
  rw [h, BitVec.getLsbD_append]

theorem bit_wordXNN (f : Nibble) (x : Reg) (nn : Byte) (i : Nat) :
    (wordXNN f x nn).getLsbD i =
      if i < 8 then nn.getLsbD i
      else if i < 12 then (BitVec.ofFin (w := 4) x).getLsbD (i - 8)
      else f.getLsbD (i - 12) := by
  have h : (wordXNN f x nn).getLsbD i =
      BitVec.getLsbD (w := 4 + 4 + 8) (f ++ BitVec.ofFin (w := 4) x ++ nn) i := rfl
  have h1 : i - 8 < 4 ↔ i < 12 := by omega
  have h2 : i - 8 - 4 = i - 12 := by omega
  rw [h, BitVec.getLsbD_append, BitVec.getLsbD_append, h2]
  simp only [h1]

theorem bit_wordXYN (f : Nibble) (x y : Reg) (n : Nibble) (i : Nat) :
    (wordXYN f x y n).getLsbD i =
      if i < 4 then n.getLsbD i
      else if i < 8 then (BitVec.ofFin (w := 4) y).getLsbD (i - 4)
      else if i < 12 then (BitVec.ofFin (w := 4) x).getLsbD (i - 8)
      else f.getLsbD (i - 12) := by
  have h : (wordXYN f x y n).getLsbD i =
      BitVec.getLsbD (w := 4 + 4 + 4 + 4)
        (f ++ BitVec.ofFin (w := 4) x ++ BitVec.ofFin (w := 4) y ++ n) i := rfl
  have h1 : i - 4 < 4 ↔ i < 8 := by omega
  have h2 : i - 4 - 4 < 4 ↔ i < 12 := by omega
  have h3 : i - 4 - 4 = i - 8 := by omega
  have h4 : i - 8 - 4 = i - 12 := by omega
  rw [h, BitVec.getLsbD_append, BitVec.getLsbD_append, BitVec.getLsbD_append]
  simp only [h1, h2]
  simp only [h3, h4]

/-! ### The two bytes of a word (R32) -/

/-- Splitting a word into its bytes and joining them gives it back. -/
theorem wordOfBytes_hiByte_loByte (op : Word) : wordOfBytes (hiByte op) (loByte op) = op := by
  apply BitVec.eq_of_getLsbD_eq
  intro i hi
  rw [bit_wordOfBytes]
  simp only [hiByte, loByte, BitVec.getLsbD_extractLsb']
  by_cases h : i < 8
  · simp [h]
  · have h1 : i - 8 < 8 := by omega
    have h2 : 8 + (i - 8) = i := by omega
    simp only [h, h1, h2, if_false, decide_true, Bool.true_and]

@[simp] theorem hiByte_wordOfBytes (hi lo : Byte) : hiByte (wordOfBytes hi lo) = hi := by
  apply BitVec.eq_of_getLsbD_eq
  intro i h
  have h1 : ¬ 8 + i < 8 := by omega
  have h2 : 8 + i - 8 = i := by omega
  simp only [hiByte, BitVec.getLsbD_extractLsb', bit_wordOfBytes, h, h1, h2, if_false,
    decide_true, Bool.true_and]

@[simp] theorem loByte_wordOfBytes (hi lo : Byte) : loByte (wordOfBytes hi lo) = lo := by
  apply BitVec.eq_of_getLsbD_eq
  intro i h
  simp only [loByte, BitVec.getLsbD_extractLsb', bit_wordOfBytes, h, Nat.zero_add, if_true,
    decide_true, Bool.true_and]

/-! ### The fields of a word (R51) of each format (R52) -/

section Formats
variable (f : Nibble) (x y : Reg) (n : Nibble) (nn : Byte) (nnn : Addr12)

@[simp] theorem f_wordNNN : (fieldsOf (wordNNN f nnn)).f = f := by
  have h : BitVec.extractLsb' 12 4 (wordNNN f nnn) = f := by
    apply BitVec.eq_of_getLsbD_eq
    intro i h
    have h1 : ¬ 12 + i < 12 := by omega
    have hi : 12 + i - 12 = i := by omega
    simp only [BitVec.getLsbD_extractLsb', bit_wordNNN, h, h1, hi, if_false, decide_true,
      Bool.true_and]
  exact h

@[simp] theorem nnn_wordNNN : (fieldsOf (wordNNN f nnn)).nnn = nnn := by
  have h : BitVec.extractLsb' 0 12 (wordNNN f nnn) = nnn := by
    apply BitVec.eq_of_getLsbD_eq
    intro i h
    simp only [BitVec.getLsbD_extractLsb', bit_wordNNN, h, if_true, decide_true,
      Bool.true_and, Nat.zero_add]
  exact h

@[simp] theorem f_wordXNN : (fieldsOf (wordXNN f x nn)).f = f := by
  have h : BitVec.extractLsb' 12 4 (wordXNN f x nn) = f := by
    apply BitVec.eq_of_getLsbD_eq
    intro i h
    have h1 : ¬ 12 + i < 8 := by omega
    have h2 : ¬ 12 + i < 12 := by omega
    have hi : 12 + i - 12 = i := by omega
    simp only [BitVec.getLsbD_extractLsb', bit_wordXNN, h, h1, h2, hi, if_false, decide_true,
      Bool.true_and]
  exact h

@[simp] theorem x_wordXNN : (fieldsOf (wordXNN f x nn)).x = x := by
  have h : BitVec.extractLsb' 8 4 (wordXNN f x nn) = BitVec.ofFin (w := 4) x := by
    apply BitVec.eq_of_getLsbD_eq
    intro i h
    have h1 : ¬ 8 + i < 8 := by omega
    have h2 : 8 + i < 12 := by omega
    have hi : 8 + i - 8 = i := by omega
    simp only [BitVec.getLsbD_extractLsb', bit_wordXNN, h, h1, h2, hi, if_true, if_false, decide_true,
      Bool.true_and]
  exact congrArg BitVec.toFin h

@[simp] theorem nn_wordXNN : (fieldsOf (wordXNN f x nn)).nn = nn := by
  have h : BitVec.extractLsb' 0 8 (wordXNN f x nn) = nn := by
    apply BitVec.eq_of_getLsbD_eq
    intro i h
    simp only [BitVec.getLsbD_extractLsb', bit_wordXNN, h, if_true, decide_true,
      Bool.true_and, Nat.zero_add]
  exact h

@[simp] theorem f_wordXYN : (fieldsOf (wordXYN f x y n)).f = f := by
  have h : BitVec.extractLsb' 12 4 (wordXYN f x y n) = f := by
    apply BitVec.eq_of_getLsbD_eq
    intro i h
    have h1 : ¬ 12 + i < 4 := by omega
    have h2 : ¬ 12 + i < 8 := by omega
    have h3 : ¬ 12 + i < 12 := by omega
    have hi : 12 + i - 12 = i := by omega
    simp only [BitVec.getLsbD_extractLsb', bit_wordXYN, h, h1, h2, h3, hi, if_false, decide_true,
      Bool.true_and]
  exact h

@[simp] theorem x_wordXYN : (fieldsOf (wordXYN f x y n)).x = x := by
  have h : BitVec.extractLsb' 8 4 (wordXYN f x y n) = BitVec.ofFin (w := 4) x := by
    apply BitVec.eq_of_getLsbD_eq
    intro i h
    have h1 : ¬ 8 + i < 4 := by omega
    have h2 : ¬ 8 + i < 8 := by omega
    have h3 : 8 + i < 12 := by omega
    have hi : 8 + i - 8 = i := by omega
    simp only [BitVec.getLsbD_extractLsb', bit_wordXYN, h, h1, h2, h3, hi, if_true, if_false, decide_true,
      Bool.true_and]
  exact congrArg BitVec.toFin h

@[simp] theorem y_wordXYN : (fieldsOf (wordXYN f x y n)).y = y := by
  have h : BitVec.extractLsb' 4 4 (wordXYN f x y n) = BitVec.ofFin (w := 4) y := by
    apply BitVec.eq_of_getLsbD_eq
    intro i h
    have h1 : ¬ 4 + i < 4 := by omega
    have h2 : 4 + i < 8 := by omega
    have hi : 4 + i - 4 = i := by omega
    simp only [BitVec.getLsbD_extractLsb', bit_wordXYN, h, h1, h2, hi, if_true, if_false, decide_true,
      Bool.true_and]
  exact congrArg BitVec.toFin h

@[simp] theorem n_wordXYN : (fieldsOf (wordXYN f x y n)).n = n := by
  have h : BitVec.extractLsb' 0 4 (wordXYN f x y n) = n := by
    apply BitVec.eq_of_getLsbD_eq
    intro i h
    simp only [BitVec.getLsbD_extractLsb', bit_wordXYN, h, if_true, decide_true,
      Bool.true_and, Nat.zero_add]
  exact h

end Formats

/-! ### A word is its fields -/

theorem ofFin_x (op : Word) : BitVec.ofFin (w := 4) (fieldsOf op).x = op.extractLsb' 8 4 := rfl

theorem ofFin_y (op : Word) : BitVec.ofFin (w := 4) (fieldsOf op).y = op.extractLsb' 4 4 := rfl

/-- A word is the word of format NNN with its own fields. -/
theorem eq_wordNNN (op : Word) : op = wordNNN (fieldsOf op).f (fieldsOf op).nnn := by
  apply BitVec.eq_of_getLsbD_eq
  intro i hi
  simp only [bit_wordNNN, fieldsOf, BitVec.getLsbD_extractLsb']
  by_cases h : i < 12
  · simp [h]
  · have h1 : i - 12 < 4 := by omega
    have h2 : 12 + (i - 12) = i := by omega
    simp only [h, h1, h2, if_false, decide_true, Bool.true_and]

/-- A word is the word of format XNN with its own fields. -/
theorem eq_wordXNN (op : Word) :
    op = wordXNN (fieldsOf op).f (fieldsOf op).x (fieldsOf op).nn := by
  apply BitVec.eq_of_getLsbD_eq
  intro i hi
  rw [bit_wordXNN, ofFin_x]
  simp only [fieldsOf, BitVec.getLsbD_extractLsb']
  by_cases h : i < 8
  · simp [h]
  · by_cases h' : i < 12
    · have h1 : i - 8 < 4 := by omega
      have h2 : 8 + (i - 8) = i := by omega
      simp [h, h', h1, h2]
    · have h1 : i - 12 < 4 := by omega
      have h2 : 12 + (i - 12) = i := by omega
      simp [h, h', h1, h2]

/-- A word is the word of format XYN with its own fields. -/
theorem eq_wordXYN (op : Word) :
    op = wordXYN (fieldsOf op).f (fieldsOf op).x (fieldsOf op).y (fieldsOf op).n := by
  apply BitVec.eq_of_getLsbD_eq
  intro i hi
  rw [bit_wordXYN, ofFin_x, ofFin_y]
  simp only [fieldsOf, BitVec.getLsbD_extractLsb']
  by_cases h : i < 4
  · simp [h]
  · by_cases h' : i < 8
    · have h1 : i - 4 < 4 := by omega
      have h2 : 4 + (i - 4) = i := by omega
      simp [h, h', h1, h2]
    · by_cases h'' : i < 12
      · have h1 : i - 8 < 4 := by omega
        have h2 : 8 + (i - 8) = i := by omega
        simp [h, h', h'', h1, h2]
      · have h1 : i - 12 < 4 := by omega
        have h2 : 12 + (i - 12) = i := by omega
        simp [h, h', h'', h1, h2]

/-- The fields of every word agree where they overlap (R51). -/
theorem fieldsOf_wf (op : Word) : (fieldsOf op).wf = true := by
  have h1 : op.extractLsb' 0 8 = op.extractLsb' 4 4 ++ op.extractLsb' 0 4 := by
    apply BitVec.eq_of_getLsbD_eq
    intro i hi
    simp only [BitVec.getLsbD_append, BitVec.getLsbD_extractLsb']
    by_cases h : i < 4
    · simp [h, hi]
    · have h1 : i - 4 < 4 := by omega
      have h2 : 4 + (i - 4) = i := by omega
      simp [h, hi, h1, h2]
  have h2 : op.extractLsb' 0 12 =
      op.extractLsb' 8 4 ++ op.extractLsb' 4 4 ++ op.extractLsb' 0 4 := by
    apply BitVec.eq_of_getLsbD_eq
    intro i hi
    simp only [BitVec.getLsbD_append, BitVec.getLsbD_extractLsb']
    by_cases h : i < 4
    · simp [h, hi]
    · by_cases h' : i - 4 < 4
      · have h2 : 4 + (i - 4) = i := by omega
        simp [h, h', hi, h2]
      · have h1 : i - 4 - 4 < 4 := by omega
        have h2 : 8 + (i - 4 - 4) = i := by omega
        simp [h, h', hi, h1, h2]
  simp only [Fields.wf, ofFin_x, ofFin_y]
  simp only [fieldsOf, h1, h2, beq_self_eq_true, Bool.and_self]

end Sys2Proof
end

