-- ==== Sys2Proof/Laws/Memory.lean ====
section
/-! SUPPORT. The laws of memory: a read after a write, and the canonical form, which every operation
keeps. -/

namespace Sys2Proof.Machine

/-! ### Read after write -/

theorem Memory.read_erase (m : Memory) (a a' : Nat) :
    (m.erase a).read a' = if a' = a then unlistedByte a' else m.read a' := by
  induction m with
  | nil => simp [Memory.erase, Memory.read]
  | cons c m ih =>
    unfold Memory.erase at ih ⊢
    by_cases hc : c.1 = a
    · simp only [List.filter, hc, bne_self_eq_false, ih, Memory.read]
      split
      · rfl
      · simp [Ne.symm ‹_›]
    · have : (c.1 != a) = true := by simpa using hc
      simp only [List.filter, this, Memory.read, ih]
      by_cases h1 : c.1 = a'
      · have : ¬ a' = a := fun h => hc (h1.trans h)
        simp [h1, this]
      · simp [h1]

theorem Memory.read_insert (m : Memory) (a a' : Nat) (b : Byte) (h : m.read a = unlistedByte a)
    (hm : ∀ c ∈ m, c.1 ≠ a) :
    (Memory.insert a b m).read a' = if a' = a then b else m.read a' := by
  induction m with
  | nil => simp [Memory.insert, Memory.read, eq_comm]
  | cons c m ih =>
    have hc : c.1 ≠ a := hm c (by simp)
    rw [Memory.insert]
    split
    · simp [Memory.read, eq_comm]
    · have h' : Memory.read m a = unlistedByte a := by simpa [Memory.read, hc] using h
      have ih := ih h' (fun d hd => hm d (by simp [hd]))
      simp only [Memory.read, ih]
      by_cases h1 : c.1 = a'
      · have : ¬ a' = a := fun h2 => hc (h1.trans h2)
        simp [h1, this]
      · simp [h1]

/-- The law of memory: a write gives its byte back at its address and leaves every other alone. -/
theorem Memory.read_write (m : Memory) (a a' : Nat) (b : Byte) :
    (m.write a b).read a' = if a' = a then b else m.read a' := by
  have he := Memory.read_erase m a
  unfold Memory.write
  split
  · rename_i hb
    rw [he]
    split <;> simp_all
  · rw [Memory.read_insert _ _ _ _ (by simp [he]) (by simp [Memory.erase]), he]
    split <;> rfl

theorem Memory.read_writeBytes (bs : List Byte) (m : Memory) (a a' : Nat) :
    (m.writeBytes a bs).read a' =
      if a ≤ a' ∧ a' < a + bs.length then bs.getD (a' - a) 0 else m.read a' := by
  induction bs generalizing m a with
  | nil => simp [Memory.writeBytes]
  | cons b bs ih =>
    simp only [Memory.writeBytes, ih, Memory.read_write, List.length_cons]
    by_cases h1 : a' = a
    · simp [h1]
    · by_cases h2 : a + 1 ≤ a' ∧ a' < a + 1 + bs.length
      · have h3 : a ≤ a' ∧ a' < a + (bs.length + 1) := by omega
        have h4 : a' - a = (a' - (a + 1)) + 1 := by omega
        simp only [h2, h3, and_self, if_true, h4, List.getD_cons_succ]
      · have h3 : ¬ (a ≤ a' ∧ a' < a + (bs.length + 1)) := by omega
        simp only [h1, h2, h3, if_false]

/-! ### The canonical form -/

theorem Memory.mem_insert (a : Nat) (b : Byte) (m : Memory) (c : Host.Cell) :
    c ∈ Memory.insert a b m ↔ c = (a, b) ∨ c ∈ m := by
  induction m with
  | nil => simp [Memory.insert]
  | cons d m ih =>
    rw [Memory.insert]
    split
    · simp
    · simp [ih]; tauto

theorem Memory.wf_nil : Memory.wf [] := by simp [Memory.wf]

theorem Memory.wf_erase {m : Memory} (h : m.wf) (a : Nat) : (m.erase a).wf := by
  obtain ⟨h1, h2⟩ := h
  refine ⟨?_, fun c hc => h2 c (List.mem_of_mem_filter hc)⟩
  rw [List.pairwise_map] at h1 ⊢
  exact h1.sublist (List.filter_sublist)

theorem Memory.wf_insert {m : Memory} (h : m.wf) {a : Nat} {b : Byte} (ha : a < Config.memSize)
    (hb : b ≠ unlistedByte a) (hm : ∀ c ∈ m, c.1 ≠ a) : (Memory.insert a b m).wf := by
  obtain ⟨h1, h2⟩ := h
  refine ⟨?_, ?_⟩
  · clear h2
    induction m with
    | nil => simp [Memory.insert]
    | cons c m ih =>
      have hc : c.1 ≠ a := hm c (by simp)
      simp only [List.map_cons, List.pairwise_cons] at h1
      rw [Memory.insert]
      split
      · simp only [List.map_cons, List.pairwise_cons, h1.2, and_true]
        refine ⟨?_, h1.1⟩
        intro k hk
        rcases List.mem_cons.1 hk with rfl | hk
        · assumption
        · exact lt_trans ‹_› (h1.1 k hk)
      · simp only [List.map_cons, List.pairwise_cons]
        refine ⟨?_, ih (fun d hd => hm d (by simp [hd])) h1.2⟩
        intro k hk
        obtain ⟨d, hd, rfl⟩ := List.mem_map.1 hk
        rcases (Memory.mem_insert a b m d).1 hd with rfl | hd
        · simp; omega
        · exact h1.1 _ (List.mem_map_of_mem hd)
  · intro c hc
    rcases (Memory.mem_insert a b m c).1 hc with rfl | hc
    · exact ⟨ha, hb⟩
    · exact h2 c hc

/-- A write inside memory keeps the canonical form. -/
theorem Memory.wf_write {m : Memory} (h : m.wf) {a : Nat} (b : Byte) (ha : a < Config.memSize) :
    (m.write a b).wf := by
  unfold Memory.write
  split
  · exact Memory.wf_erase h a
  · exact Memory.wf_insert (Memory.wf_erase h a) ha ‹_› (by simp [Memory.erase])

theorem Memory.wf_writeBytes {m : Memory} (h : m.wf) {a : Nat} (bs : List Byte)
    (ha : a + bs.length ≤ Config.memSize) : (m.writeBytes a bs).wf := by
  induction bs generalizing m a with
  | nil => exact h
  | cons b bs ih =>
    simp only [List.length_cons] at ha
    exact ih (Memory.wf_write h b (by omega)) (by omega)

/-- Laying a word out inside memory keeps the canonical form. -/
theorem Memory.wf_placeWord {m : Memory} (h : m.wf) {a : Nat} (op : Word)
    (ha : a + 2 ≤ Config.memSize) : (m.placeWord a op).wf :=
  Memory.wf_writeBytes h _ (by simpa using ha)

/-! ### Memory after `initialize` -/

/-- The font given below 0x050, and 0 above it. -/
theorem Memory.read_resetWith (font : Font) (a : Nat) :
    (State.resetWith font).mem.read a = font.toList.getD a 0 := by
  simp only [State.resetWith, State.reset, Config.fontBase, Memory.read_writeBytes, Vector.length_toList]
  split
  · simp
  · have h : 80 ≤ a := by omega
    have hd : Config.defaultFontBytes.length = 80 := rfl
    rw [Memory.read, unlistedByte, List.getD_eq_default _ _ (by omega),
      List.getD_eq_default _ _ (by simpa using h)]

theorem Memory.wf_resetWith (font : Font) : (State.resetWith font).mem.wf :=
  Memory.wf_writeBytes Memory.wf_nil _ (by simp [Config.fontBase, Config.memSize])

/-- The default font lists nothing. -/
theorem State.resetWith_default : State.resetWith Config.defaultFont = State.reset := by decide

/-! ### The fetch -/

/-- The word laid out at an address is the word read there. -/
theorem Memory.readWord_placeWord (m : Memory) (a : Nat) (op : Word) :
    (m.placeWord a op).readWord a = op := by
  simp only [Memory.readWord, Memory.placeWord, Memory.writeBytes, Memory.read_write]
  simp [wordOfBytes_hiByte_loByte]

end Sys2Proof.Machine
end

