-- ==== Sys2Proof/Laws/State.lean ====
section
/-! SUPPORT. One lemma per field per update, so that no later proof unfolds a record update. -/

namespace Sys2Proof.Machine

variable (s : State)

/-! ### `State.setV` -/

@[simp] theorem State.setV_mem (x : Reg) (b : Byte) : (s.setV x b).mem = s.mem := rfl
@[simp] theorem State.setV_V (x : Reg) (b : Byte) : (s.setV x b).V = s.V.set x.val b := rfl
@[simp] theorem State.setV_I (x : Reg) (b : Byte) : (s.setV x b).I = s.I := rfl
@[simp] theorem State.setV_pc (x : Reg) (b : Byte) : (s.setV x b).pc = s.pc := rfl
@[simp] theorem State.setV_stack (x : Reg) (b : Byte) : (s.setV x b).stack = s.stack := rfl
@[simp] theorem State.setV_sp (x : Reg) (b : Byte) : (s.setV x b).sp = s.sp := rfl
@[simp] theorem State.setV_DT (x : Reg) (b : Byte) : (s.setV x b).DT = s.DT := rfl
@[simp] theorem State.setV_ST (x : Reg) (b : Byte) : (s.setV x b).ST = s.ST := rfl
@[simp] theorem State.setV_fb (x : Reg) (b : Byte) : (s.setV x b).fb = s.fb := rfl
@[simp] theorem State.setV_key (x : Reg) (b : Byte) : (s.setV x b).key = s.key := rfl
@[simp] theorem State.setV_status (x : Reg) (b : Byte) : (s.setV x b).status = s.status := rfl
@[simp] theorem State.setV_waitX (x : Reg) (b : Byte) : (s.setV x b).waitX = s.waitX := rfl
@[simp] theorem State.setV_faultKind (x : Reg) (b : Byte) : (s.setV x b).faultKind = s.faultKind := rfl
@[simp] theorem State.setV_faultAddr (x : Reg) (b : Byte) : (s.setV x b).faultAddr = s.faultAddr := rfl
@[simp] theorem State.setV_faultOpcode (x : Reg) (b : Byte) : (s.setV x b).faultOpcode = s.faultOpcode := rfl
@[simp] theorem State.setV_draws (x : Reg) (b : Byte) : (s.setV x b).draws = s.draws := rfl

/-! ### `State.setI` -/

@[simp] theorem State.setI_mem (w : Word) : (s.setI w).mem = s.mem := rfl
@[simp] theorem State.setI_V (w : Word) : (s.setI w).V = s.V := rfl
@[simp] theorem State.setI_I (w : Word) : (s.setI w).I = w := rfl
@[simp] theorem State.setI_pc (w : Word) : (s.setI w).pc = s.pc := rfl
@[simp] theorem State.setI_stack (w : Word) : (s.setI w).stack = s.stack := rfl
@[simp] theorem State.setI_sp (w : Word) : (s.setI w).sp = s.sp := rfl
@[simp] theorem State.setI_DT (w : Word) : (s.setI w).DT = s.DT := rfl
@[simp] theorem State.setI_ST (w : Word) : (s.setI w).ST = s.ST := rfl
@[simp] theorem State.setI_fb (w : Word) : (s.setI w).fb = s.fb := rfl
@[simp] theorem State.setI_key (w : Word) : (s.setI w).key = s.key := rfl
@[simp] theorem State.setI_status (w : Word) : (s.setI w).status = s.status := rfl
@[simp] theorem State.setI_waitX (w : Word) : (s.setI w).waitX = s.waitX := rfl
@[simp] theorem State.setI_faultKind (w : Word) : (s.setI w).faultKind = s.faultKind := rfl
@[simp] theorem State.setI_faultAddr (w : Word) : (s.setI w).faultAddr = s.faultAddr := rfl
@[simp] theorem State.setI_faultOpcode (w : Word) : (s.setI w).faultOpcode = s.faultOpcode := rfl
@[simp] theorem State.setI_draws (w : Word) : (s.setI w).draws = s.draws := rfl
@[simp] theorem State.getV_setI (w : Word) (r : Reg) : (s.setI w).getV r = s.getV r := rfl

/-! ### `State.advance` -/

@[simp] theorem State.advance_mem : (s.advance).mem = s.mem := rfl
@[simp] theorem State.advance_V : (s.advance).V = s.V := rfl
@[simp] theorem State.advance_I : (s.advance).I = s.I := rfl
@[simp] theorem State.advance_pc : (s.advance).pc = s.pc + 2 := rfl
@[simp] theorem State.advance_stack : (s.advance).stack = s.stack := rfl
@[simp] theorem State.advance_sp : (s.advance).sp = s.sp := rfl
@[simp] theorem State.advance_DT : (s.advance).DT = s.DT := rfl
@[simp] theorem State.advance_ST : (s.advance).ST = s.ST := rfl
@[simp] theorem State.advance_fb : (s.advance).fb = s.fb := rfl
@[simp] theorem State.advance_key : (s.advance).key = s.key := rfl
@[simp] theorem State.advance_status : (s.advance).status = s.status := rfl
@[simp] theorem State.advance_waitX : (s.advance).waitX = s.waitX := rfl
@[simp] theorem State.advance_faultKind : (s.advance).faultKind = s.faultKind := rfl
@[simp] theorem State.advance_faultAddr : (s.advance).faultAddr = s.faultAddr := rfl
@[simp] theorem State.advance_faultOpcode : (s.advance).faultOpcode = s.faultOpcode := rfl
@[simp] theorem State.advance_draws : (s.advance).draws = s.draws := rfl
@[simp] theorem State.getV_advance (r : Reg) : (s.advance).getV r = s.getV r := rfl

/-! ### `State.skipIf` -/

@[simp] theorem State.skipIf_mem (c : Bool) : (s.skipIf c).mem = s.mem := rfl
@[simp] theorem State.skipIf_V (c : Bool) : (s.skipIf c).V = s.V := rfl
@[simp] theorem State.skipIf_I (c : Bool) : (s.skipIf c).I = s.I := rfl
@[simp] theorem State.skipIf_pc (c : Bool) : (s.skipIf c).pc = if c then s.pc + 2 + 2 else s.pc + 2 := rfl
@[simp] theorem State.skipIf_stack (c : Bool) : (s.skipIf c).stack = s.stack := rfl
@[simp] theorem State.skipIf_sp (c : Bool) : (s.skipIf c).sp = s.sp := rfl
@[simp] theorem State.skipIf_DT (c : Bool) : (s.skipIf c).DT = s.DT := rfl
@[simp] theorem State.skipIf_ST (c : Bool) : (s.skipIf c).ST = s.ST := rfl
@[simp] theorem State.skipIf_fb (c : Bool) : (s.skipIf c).fb = s.fb := rfl
@[simp] theorem State.skipIf_key (c : Bool) : (s.skipIf c).key = s.key := rfl
@[simp] theorem State.skipIf_status (c : Bool) : (s.skipIf c).status = s.status := rfl
@[simp] theorem State.skipIf_waitX (c : Bool) : (s.skipIf c).waitX = s.waitX := rfl
@[simp] theorem State.skipIf_faultKind (c : Bool) : (s.skipIf c).faultKind = s.faultKind := rfl
@[simp] theorem State.skipIf_faultAddr (c : Bool) : (s.skipIf c).faultAddr = s.faultAddr := rfl
@[simp] theorem State.skipIf_faultOpcode (c : Bool) : (s.skipIf c).faultOpcode = s.faultOpcode := rfl
@[simp] theorem State.skipIf_draws (c : Bool) : (s.skipIf c).draws = s.draws := rfl
@[simp] theorem State.getV_skipIf (c : Bool) (r : Reg) : (s.skipIf c).getV r = s.getV r := rfl

/-! ### `State.jump` -/

@[simp] theorem State.jump_mem (w : Word) : (s.jump w).mem = s.mem := rfl
@[simp] theorem State.jump_V (w : Word) : (s.jump w).V = s.V := rfl
@[simp] theorem State.jump_I (w : Word) : (s.jump w).I = s.I := rfl
@[simp] theorem State.jump_pc (w : Word) : (s.jump w).pc = w := rfl
@[simp] theorem State.jump_stack (w : Word) : (s.jump w).stack = s.stack := rfl
@[simp] theorem State.jump_sp (w : Word) : (s.jump w).sp = s.sp := rfl
@[simp] theorem State.jump_DT (w : Word) : (s.jump w).DT = s.DT := rfl
@[simp] theorem State.jump_ST (w : Word) : (s.jump w).ST = s.ST := rfl
@[simp] theorem State.jump_fb (w : Word) : (s.jump w).fb = s.fb := rfl
@[simp] theorem State.jump_key (w : Word) : (s.jump w).key = s.key := rfl
@[simp] theorem State.jump_status (w : Word) : (s.jump w).status = s.status := rfl
@[simp] theorem State.jump_waitX (w : Word) : (s.jump w).waitX = s.waitX := rfl
@[simp] theorem State.jump_faultKind (w : Word) : (s.jump w).faultKind = s.faultKind := rfl
@[simp] theorem State.jump_faultAddr (w : Word) : (s.jump w).faultAddr = s.faultAddr := rfl
@[simp] theorem State.jump_faultOpcode (w : Word) : (s.jump w).faultOpcode = s.faultOpcode := rfl
@[simp] theorem State.jump_draws (w : Word) : (s.jump w).draws = s.draws := rfl
@[simp] theorem State.getV_jump (w : Word) (r : Reg) : (s.jump w).getV r = s.getV r := rfl

/-! ### `State.takeFault` -/

@[simp] theorem State.takeFault_mem (k : Fault) (op : Word) : (s.takeFault k op).mem = s.mem := rfl
@[simp] theorem State.takeFault_V (k : Fault) (op : Word) : (s.takeFault k op).V = s.V := rfl
@[simp] theorem State.takeFault_I (k : Fault) (op : Word) : (s.takeFault k op).I = s.I := rfl
@[simp] theorem State.takeFault_pc (k : Fault) (op : Word) : (s.takeFault k op).pc = s.pc := rfl
@[simp] theorem State.takeFault_stack (k : Fault) (op : Word) : (s.takeFault k op).stack = s.stack := rfl
@[simp] theorem State.takeFault_sp (k : Fault) (op : Word) : (s.takeFault k op).sp = s.sp := rfl
@[simp] theorem State.takeFault_DT (k : Fault) (op : Word) : (s.takeFault k op).DT = s.DT := rfl
@[simp] theorem State.takeFault_ST (k : Fault) (op : Word) : (s.takeFault k op).ST = s.ST := rfl
@[simp] theorem State.takeFault_fb (k : Fault) (op : Word) : (s.takeFault k op).fb = s.fb := rfl
@[simp] theorem State.takeFault_key (k : Fault) (op : Word) : (s.takeFault k op).key = s.key := rfl
@[simp] theorem State.takeFault_status (k : Fault) (op : Word) : (s.takeFault k op).status = .faulted := rfl
@[simp] theorem State.takeFault_waitX (k : Fault) (op : Word) : (s.takeFault k op).waitX = s.waitX := rfl
@[simp] theorem State.takeFault_faultKind (k : Fault) (op : Word) : (s.takeFault k op).faultKind = some k := rfl
@[simp] theorem State.takeFault_faultAddr (k : Fault) (op : Word) : (s.takeFault k op).faultAddr = s.pc := rfl
@[simp] theorem State.takeFault_faultOpcode (k : Fault) (op : Word) : (s.takeFault k op).faultOpcode = op := rfl
@[simp] theorem State.takeFault_draws (k : Fault) (op : Word) : (s.takeFault k op).draws = s.draws := rfl
@[simp] theorem State.getV_takeFault (k : Fault) (op : Word) (r : Reg) : (s.takeFault k op).getV r = s.getV r := rfl

/-! ### `State.resetWith` and `initialise` -/

@[simp] theorem State.resetWith_V (font : Font) : (State.resetWith font).V = State.reset.V := rfl
@[simp] theorem State.resetWith_I (font : Font) : (State.resetWith font).I = State.reset.I := rfl
@[simp] theorem State.resetWith_pc (font : Font) : (State.resetWith font).pc = State.reset.pc := rfl
@[simp] theorem State.resetWith_stack (font : Font) : (State.resetWith font).stack = State.reset.stack := rfl
@[simp] theorem State.resetWith_sp (font : Font) : (State.resetWith font).sp = State.reset.sp := rfl
@[simp] theorem State.resetWith_DT (font : Font) : (State.resetWith font).DT = State.reset.DT := rfl
@[simp] theorem State.resetWith_ST (font : Font) : (State.resetWith font).ST = State.reset.ST := rfl
@[simp] theorem State.resetWith_fb (font : Font) : (State.resetWith font).fb = State.reset.fb := rfl
@[simp] theorem State.resetWith_key (font : Font) : (State.resetWith font).key = State.reset.key := rfl
@[simp] theorem State.resetWith_status (font : Font) : (State.resetWith font).status = State.reset.status := rfl
@[simp] theorem State.resetWith_waitX (font : Font) : (State.resetWith font).waitX = State.reset.waitX := rfl
@[simp] theorem State.resetWith_faultKind (font : Font) : (State.resetWith font).faultKind = State.reset.faultKind := rfl
@[simp] theorem State.resetWith_faultAddr (font : Font) : (State.resetWith font).faultAddr = State.reset.faultAddr := rfl
@[simp] theorem State.resetWith_faultOpcode (font : Font) : (State.resetWith font).faultOpcode = State.reset.faultOpcode := rfl
@[simp] theorem State.resetWith_draws (font : Font) : (State.resetWith font).draws = State.reset.draws := rfl
@[simp] theorem initialise_mem (font : Font) : (initialise font s).mem = (State.resetWith font).mem := rfl
@[simp] theorem initialise_V (font : Font) : (initialise font s).V = (State.resetWith font).V := rfl
@[simp] theorem initialise_I (font : Font) : (initialise font s).I = (State.resetWith font).I := rfl
@[simp] theorem initialise_pc (font : Font) : (initialise font s).pc = (State.resetWith font).pc := rfl
@[simp] theorem initialise_stack (font : Font) : (initialise font s).stack = (State.resetWith font).stack := rfl
@[simp] theorem initialise_sp (font : Font) : (initialise font s).sp = (State.resetWith font).sp := rfl
@[simp] theorem initialise_DT (font : Font) : (initialise font s).DT = (State.resetWith font).DT := rfl
@[simp] theorem initialise_ST (font : Font) : (initialise font s).ST = (State.resetWith font).ST := rfl
@[simp] theorem initialise_fb (font : Font) : (initialise font s).fb = (State.resetWith font).fb := rfl
@[simp] theorem initialise_key (font : Font) : (initialise font s).key = (State.resetWith font).key := rfl
@[simp] theorem initialise_status (font : Font) : (initialise font s).status = (State.resetWith font).status := rfl
@[simp] theorem initialise_waitX (font : Font) : (initialise font s).waitX = (State.resetWith font).waitX := rfl
@[simp] theorem initialise_faultKind (font : Font) : (initialise font s).faultKind = (State.resetWith font).faultKind := rfl
@[simp] theorem initialise_faultAddr (font : Font) : (initialise font s).faultAddr = (State.resetWith font).faultAddr := rfl
@[simp] theorem initialise_faultOpcode (font : Font) : (initialise font s).faultOpcode = (State.resetWith font).faultOpcode := rfl
@[simp] theorem initialise_draws (font : Font) : (initialise font s).draws = s.draws := rfl

/-! ### Reading a register -/

theorem State.getV_setV (x r : Reg) (b : Byte) :
    (s.setV x b).getV r = if x = r then b else s.getV r := by
  simp only [State.getV, State.setV, Vector.getElem_set]
  exact if_congr Fin.val_inj rfl rfl

@[simp] theorem State.getV_setV_same (x : Reg) (b : Byte) : (s.setV x b).getV x = b := by
  simp [State.getV_setV]

theorem State.getV_setV_other {x r : Reg} (b : Byte) (h : r ≠ x) :
    (s.setV x b).getV r = s.getV r := by
  simp [State.getV_setV, Ne.symm h]

/-- A state whose other fields were replaced still reads its registers from `V`. -/
theorem State.getV_of_V {s t : State} (h : t.V = s.V) (r : Reg) : t.getV r = s.getV r := by
  simp [State.getV, h]

/-! ### The stack -/

/-- All a push can do. -/
theorem State.push_eq_some {s t : State} {w : Word} :
    s.push w = some t ↔ ∃ h : s.sp.val < 16,
      t = { s with stack := s.stack.set s.sp.val w, sp := ⟨s.sp.val + 1, by omega⟩ } := by
  unfold State.push
  split <;> rename_i h
  · simp [h, eq_comm]
  · simp [h]

/-- All a pop can do. -/
theorem State.pop_eq_some {s t : State} {w : Word} :
    s.pop = some (w, t) ↔ ∃ _ : s.sp.val ≠ 0, w = s.stack[s.sp.val - 1] ∧
      t = { s with sp := ⟨s.sp.val - 1, by omega⟩ } := by
  unfold State.pop
  split <;> rename_i h
  · simp [h]
  · simp [h, eq_comm]

theorem State.push_eq_none {s : State} {w : Word} : s.push w = none ↔ s.sp.val = 16 := by
  unfold State.push
  split <;> simp <;> omega

theorem State.pop_eq_none {s : State} : s.pop = none ↔ s.sp.val = 0 := by
  unfold State.pop
  split <;> simp_all

end Sys2Proof.Machine
end

