-- ==== Sys2Proof/Laws/Operands.lean ====
section
/-! SUPPORT. What each operand form and flag can be: one lemma per shared operation, which proofs cite
instead of unfolding it. -/

namespace Sys2Proof.Machine

/-! ### Immediates and flags as numbers -/

@[simp] theorem toNat_target (nnn : Addr12) : (target nnn).toNat = nnn.toNat := by
  simp only [target, BitVec.toNat_setWidth]
  have := nnn.isLt
  omega

@[simp] theorem toNat_widen (b : Byte) : (widen b).toNat = b.toNat := by
  simp only [widen, BitVec.toNat_setWidth]
  have := b.isLt
  omega

@[simp] theorem toNat_flagByte (f : Bool) : (flagByte f).toNat = if f then 1 else 0 := by
  cases f <;> rfl

@[simp] theorem toNat_keyByte (k : Key) : (keyByte k).toNat = k.val := by
  simp only [keyByte, BitVec.toNat_ofNat]
  omega

theorem toNat_glyphAddress (a : Byte) : (glyphAddress a).toNat = 5 * (a.toNat % 16) := by
  have h : (a &&& 0x0F).toNat = a.toNat % 16 := by
    rw [BitVec.toNat_and]
    exact Nat.and_two_pow_sub_one_eq_mod a.toNat 4
  rw [glyphAddress, BitVec.toNat_mul, toNat_widen, h]
  simp
  omega

/-! ### Memory operands (R35 to R37) -/

theorem State.ea_eq (s : State) (k : Nat) : s.ea k = s.I.toNat + k := rfl

theorem State.readFault_eq_none {s : State} {n : Nat} :
    s.readFault n = none ↔ n = 0 ∨ s.I.toNat + (n - 1) ≤ 0xFFF := by
  unfold State.readFault memReadFault State.ea
  split
  · simp [*]
  · split <;> simp <;> omega

/-- A refused read is out of bounds, and nothing else. -/
theorem State.readFault_eq_some {s : State} {n : Nat} {k : Fault} :
    s.readFault n = some k ↔
      n ≠ 0 ∧ 0xFFF < s.I.toNat + (n - 1) ∧ k = .dataAddressOutOfBounds := by
  unfold State.readFault memReadFault State.ea
  split
  · simp [*]
  · split
    · simp only [Option.some.injEq, eq_comm (a := k), *, true_and, ne_eq, not_false_eq_true]
    · simp only [reduceCtorEq, false_iff]
      omega

theorem State.writeFault_eq_none {s : State} {n : Nat} :
    s.writeFault n = none ↔ s.I.toNat + (n - 1) ≤ 0xFFF ∧ 0x050 ≤ s.I.toNat := by
  unfold State.writeFault State.ea
  split
  · simp; omega
  · split <;> simp <;> omega

/-- A refused write is out of bounds, or else into the font. -/
theorem State.writeFault_eq_some {s : State} {n : Nat} {k : Fault} :
    s.writeFault n = some k ↔
      (0xFFF < s.I.toNat + (n - 1) ∧ k = .dataAddressOutOfBounds) ∨
      (s.I.toNat + (n - 1) ≤ 0xFFF ∧ s.I.toNat < 0x050 ∧ k = .fontRegionWrite) := by
  unfold State.writeFault State.ea
  rw [Nat.add_zero]
  by_cases h1 : s.I.toNat + (n - 1) > 0xFFF
  · simp [h1, eq_comm (a := k), Nat.not_le.2 h1]
  · by_cases h2 : s.I.toNat < 0x050
    · simp [h1, h2, eq_comm (a := k), Nat.not_lt.1 h1]
    · simp [h1, h2]

/-- Checking the highest address is checking every one (R36). -/
theorem State.readFault_iff_memReadFault (s : State) (n : Nat) :
    s.readFault n = none ↔ ∀ k < n, memReadFault (s.ea k) = none := by
  have h : ∀ k, memReadFault (s.ea k) = none ↔ s.I.toNat + k ≤ 0xFFF := by
    intro k
    unfold memReadFault State.ea
    split <;> simp <;> omega
  simp only [State.readFault_eq_none, h]
  constructor
  · intro h0 k hk; omega
  · intro h0
    rcases Nat.eq_zero_or_pos n with hn | hn
    · exact .inl hn
    · exact .inr (h0 (n - 1) (by omega))

/-- Checking the highest address and the lowest is checking every one (R37, R113, R114). -/
theorem State.writeFault_iff_memWriteFault (s : State) {n : Nat} (hn : 0 < n) :
    s.writeFault n = none ↔ ∀ k < n, memWriteFault (s.ea k) = none := by
  have h : ∀ k, memWriteFault (s.ea k) = none ↔ s.I.toNat + k ≤ 0xFFF ∧ 0x050 ≤ s.I.toNat + k := by
    intro k
    unfold memWriteFault State.ea
    split
    · simp; omega
    · split <;> simp <;> omega
  simp only [State.writeFault_eq_none, h]
  constructor
  · intro h0 k hk; omega
  · intro h0
    have := h0 0 hn
    have := h0 (n - 1) (by omega)
    omega

@[simp] theorem State.length_bytesAtI (s : State) (n : Nat) : (s.bytesAtI n).length = n := by
  simp [State.bytesAtI]

theorem State.getD_bytesAtI (s : State) {n k : Nat} (h : k < n) :
    (s.bytesAtI n).getD k 0 = s.mem.read (s.I.toNat + k) := by
  simp [State.bytesAtI, h, State.ea]

@[simp] theorem State.length_regsUpTo (s : State) (x : Reg) :
    (s.regsUpTo x).length = x.val + 1 := by
  simp [State.regsUpTo]

theorem State.getD_regsUpTo (s : State) {x k : Reg} (h : k ≤ x) :
    (s.regsUpTo x).getD k.val 0 = s.getV k := by
  have h' : k.val < x.val + 1 := Nat.lt_succ_of_le h
  simp [State.regsUpTo, State.getV, h']

@[simp] theorem length_bcdDigits (a : Byte) : (bcdDigits a).length = 3 := rfl

/-- A register after a block load: loaded when its number is in the block. -/
theorem getElem_loadRegs (bs : List Byte) (v : Vector Byte 16) (k r : Nat) (hr : r < 16) :
    (loadRegs v k bs)[r] = if k ≤ r ∧ r < k + bs.length then bs.getD (r - k) 0 else v[r] := by
  induction bs generalizing v k with
  | nil => simp [loadRegs]
  | cons b bs ih =>
    simp only [loadRegs, ih, List.length_cons, Vector.getElem_setIfInBounds]
    by_cases h1 : k = r
    · simp [h1]
    · by_cases h2 : k + 1 ≤ r ∧ r < k + 1 + bs.length
      · have h3 : k ≤ r ∧ r < k + (bs.length + 1) := by omega
        have h4 : r - k = (r - (k + 1)) + 1 := by omega
        simp only [h2, h3, and_self, if_true, h4, List.getD_cons_succ]
      · have h3 : ¬ (k ≤ r ∧ r < k + (bs.length + 1)) := by omega
        simp only [h1, h2, h3, if_false]

/-! ### Keys (R4, R125, R128) -/

theorem State.latch_eq_some {s : State} {b : Byte} {p : Bool} :
    s.latch b = some p ↔ ∃ h : b.toNat < 16, s.key[b.toNat] = p := by
  unfold State.latch
  split <;> simp_all

theorem State.latch_eq_none {s : State} {b : Byte} : s.latch b = none ↔ 16 ≤ b.toNat := by
  unfold State.latch
  split <;> simp <;> omega

theorem mem_pressedKeys (key : Keypad) (k : Key) : k ∈ pressedKeys key ↔ key[k.val] = true := by
  simp [pressedKeys]

theorem keySelect_eq_none {key : Keypad} :
    keySelect key = none ↔ ∀ k : Key, key[k.val] = false := by
  have h : pressedKeys key = [] ↔ ∀ k : Key, key[k.val] = false := by
    simp [List.eq_nil_iff_forall_not_mem, mem_pressedKeys]
  rw [← h]
  unfold keySelect
  split <;> simp_all

/-- A selected key is a pressed key. -/
theorem pressed_of_keySelect {key : Keypad} {k : Key} (h : keySelect key = some k) :
    key[k.val] = true := by
  rw [← mem_pressedKeys]
  unfold keySelect at h
  split at h
  · simp at h
  · simp_all
  · rename_i k' ks hk
    rw [hk]
    simp only [Option.some.injEq] at h
    split at h
    · exact h ▸ ‹_›
    · simp [← h]

/-- When one key is down it is the one selected, whatever `KeySelect` is. -/
theorem keySelect_of_unique {key : Keypad} {k : Key} (h : key[k.val] = true)
    (hu : ∀ j : Key, key[j.val] = true → j = k) : keySelect key = some k := by
  cases hs : keySelect key with
  | none =>
    have := keySelect_eq_none.1 hs k
    simp_all
  | some j => rw [hu j (pressed_of_keySelect hs)]

end Sys2Proof.Machine
end

