-- ==== Sys2Proof/Laws/Display.lean ====
section
/-! SUPPORT. The draw, cell by cell: what the loops of R121 come to at one cell of the framebuffer and
in the collision flag. -/

namespace Sys2Proof.Machine

/-- The cell (X, Y); off the grid it is unlit. -/
def cell (fb : FrameBuffer) (X Y : Nat) : Bool :=
  if h : X < 64 ∧ Y < 32 then fb[Y][X] else false

theorem cell_in {fb : FrameBuffer} {X Y : Nat} (hX : X < 64) (hY : Y < 32) :
    cell fb X Y = fb[Y][X] := by
  simp [cell, hX, hY]

theorem cell_off {fb : FrameBuffer} {X Y : Nat} (h : ¬ (X < 64 ∧ Y < 32)) :
    cell fb X Y = false := by
  simp [cell, h]

/-- Framebuffers with the same cells are the same. -/
theorem fb_ext {fb fb' : FrameBuffer} (h : ∀ X Y, cell fb X Y = cell fb' X Y) : fb = fb' := by
  apply Vector.ext
  intro Y hY
  apply Vector.ext
  intro X hX
  have := h X Y
  rwa [cell_in hX hY, cell_in hX hY] at this

theorem cell_flipCell (X Y : Nat) (d : FrameBuffer × Bool) (X' Y' : Nat) :
    cell (flipCell X Y d).1 X' Y' =
      (cell d.1 X' Y' ^^ decide (X' = X ∧ Y' = Y ∧ X < 64 ∧ Y < 32)) := by
  unfold flipCell
  split <;> rename_i h
  · by_cases hg : X' < 64 ∧ Y' < 32
    · rw [cell_in hg.1 hg.2, cell_in hg.1 hg.2]
      simp only [Vector.getElem_set, h, and_true]
      by_cases hY : Y = Y'
      · subst hY
        by_cases hX : X = X'
        · subst hX; simp
        · have hX' : ¬ X' = X := fun e => hX e.symm
          simp [hX, hX']
      · have hY' : ¬ Y' = Y := fun e => hY e.symm
        simp [hY, hY']
    · have : ¬ (X' = X ∧ Y' = Y ∧ X < 64 ∧ Y < 32) := by omega
      simp [cell_off hg, this]
  · have : ¬ (X' = X ∧ Y' = Y ∧ X < 64 ∧ Y < 32) := by omega
    simp [this]

theorem hit_flipCell (X Y : Nat) (d : FrameBuffer × Bool) :
    (flipCell X Y d).2 = (d.2 || cell d.1 X Y) := by
  unfold flipCell
  split <;> rename_i h
  · simp [cell, h]
  · simp [cell_off h]

/-- The first `m` pixels of a sprite row. -/
def drawPixels (b : Byte) (px Y m : Nat) (d : FrameBuffer × Bool) : FrameBuffer × Bool :=
  (List.range m).foldl (fun d c => if b.getLsbD (7 - c) then flipCell (px + c) Y d else d) d

theorem drawRow_eq (b : Byte) (px Y : Nat) (d : FrameBuffer × Bool) :
    drawRow b px Y d = drawPixels b px Y 8 d := rfl

theorem drawPixels_succ (b : Byte) (px Y m : Nat) (d : FrameBuffer × Bool) :
    drawPixels b px Y (m + 1) d =
      if b.getLsbD (7 - m) then flipCell (px + m) Y (drawPixels b px Y m d)
      else drawPixels b px Y m d := by
  simp [drawPixels, List.range_succ]

theorem cell_drawPixels (b : Byte) (px Y m : Nat) (d : FrameBuffer × Bool) (X' Y' : Nat) :
    cell (drawPixels b px Y m d).1 X' Y' =
      (cell d.1 X' Y' ^^
        (decide (px ≤ X' ∧ X' < px + m ∧ Y' = Y ∧ X' < 64 ∧ Y < 32) && b.getLsbD (7 - (X' - px)))) := by
  induction m with
  | zero =>
    have : ¬ (px ≤ X' ∧ X' < px + 0 ∧ Y' = Y ∧ X' < 64 ∧ Y < 32) := by omega
    simp only [this, decide_false, Bool.false_and, Bool.xor_false]
    rfl
  | succ m ih =>
    rw [drawPixels_succ]
    by_cases hX : X' = px + m ∧ Y' = Y ∧ X' < 64 ∧ Y < 32
    · have h1 : ¬ (px ≤ X' ∧ X' < px + m ∧ Y' = Y ∧ X' < 64 ∧ Y < 32) := by omega
      have h2 : px ≤ X' ∧ X' < px + (m + 1) ∧ Y' = Y ∧ X' < 64 ∧ Y < 32 := by omega
      have h3 : X' - px = m := by omega
      have h4 : X' = px + m ∧ Y' = Y ∧ px + m < 64 ∧ Y < 32 := by omega
      rw [decide_eq_false h1, Bool.false_and, Bool.xor_false] at ih
      rw [decide_eq_true h2, Bool.true_and, h3]
      split <;> rename_i hb
      · rw [cell_flipCell, ih, decide_eq_true h4, hb]
      · rw [ih, Bool.eq_false_of_not_eq_true hb, Bool.xor_false]
    · have h1 : (px ≤ X' ∧ X' < px + (m + 1) ∧ Y' = Y ∧ X' < 64 ∧ Y < 32) ↔
          (px ≤ X' ∧ X' < px + m ∧ Y' = Y ∧ X' < 64 ∧ Y < 32) := by omega
      have h4 : ¬ (X' = px + m ∧ Y' = Y ∧ px + m < 64 ∧ Y < 32) := by omega
      simp only [h1]
      split
      · rw [cell_flipCell, ih, decide_eq_false h4, Bool.xor_false]
      · exact ih

theorem hit_drawPixels (b : Byte) (px Y m : Nat) (d : FrameBuffer × Bool) :
    (drawPixels b px Y m d).2 = true ↔
      d.2 = true ∨ ∃ c < m, b.getLsbD (7 - c) = true ∧ cell d.1 (px + c) Y = true := by
  induction m with
  | zero => simp [drawPixels]
  | succ m ih =>
    rw [drawPixels_succ]
    have hc : cell (drawPixels b px Y m d).1 (px + m) Y = cell d.1 (px + m) Y := by
      rw [cell_drawPixels]
      have : ¬ (px ≤ px + m ∧ px + m < px + m ∧ Y = Y ∧ px + m < 64 ∧ Y < 32) := by omega
      rw [decide_eq_false this, Bool.false_and, Bool.xor_false]
    constructor
    · intro h
      split at h
      · rw [hit_flipCell, Bool.or_eq_true, ih, hc] at h
        rcases h with (h | ⟨c, h1, h2⟩) | h
        · exact .inl h
        · exact .inr ⟨c, by omega, h2⟩
        · exact .inr ⟨m, by omega, ‹_›, h⟩
      · rcases ih.1 h with h | ⟨c, h1, h2⟩
        · exact .inl h
        · exact .inr ⟨c, by omega, h2⟩
    · intro h
      have h' : (drawPixels b px Y m d).2 = true ∨
          (b.getLsbD (7 - m) = true ∧ cell d.1 (px + m) Y = true) := by
        rw [ih]
        rcases h with h | ⟨c, h1, h2⟩
        · exact .inl (.inl h)
        · by_cases hcm : c = m
          · exact .inr (hcm ▸ h2)
          · exact .inl (.inr ⟨c, by omega, h2⟩)
      split
      · rw [hit_flipCell, Bool.or_eq_true, hc]
        exact h'.imp id And.right
      · exact h'.resolve_right (fun h => ‹¬ _› h.1)

/-- The pixel that rows `bs`, drawn at column `px` and row `py`, have at (X, Y). -/
def rowsPixel (bs : List Byte) (px py X Y : Nat) : Bool :=
  decide (px ≤ X ∧ X < px + 8 ∧ py ≤ Y ∧ Y < py + bs.length) &&
    (bs.getD (Y - py) 0).getLsbD (7 - (X - px))

theorem rowsPixel_cons (b : Byte) (bs : List Byte) (px py X Y : Nat) :
    rowsPixel (b :: bs) px py X Y =
      ((decide (px ≤ X ∧ X < px + 8 ∧ Y = py) && b.getLsbD (7 - (X - px))) ||
        rowsPixel bs px (py + 1) X Y) := by
  unfold rowsPixel
  by_cases hY : Y = py
  · subst hY
    have h2 : ¬ (px ≤ X ∧ X < px + 8 ∧ Y + 1 ≤ Y ∧ Y < Y + 1 + bs.length) := by omega
    have h3 : (px ≤ X ∧ X < px + 8 ∧ Y ≤ Y ∧ Y < Y + (b :: bs).length) ↔
        (px ≤ X ∧ X < px + 8 ∧ Y = Y) := by simp
    simp only [h2, h3, decide_false, Bool.false_and, Bool.or_false, Nat.sub_self, List.getD_cons_zero]
  · have h1 : ¬ (px ≤ X ∧ X < px + 8 ∧ Y = py) := by omega
    have h2 : (px ≤ X ∧ X < px + 8 ∧ py ≤ Y ∧ Y < py + (b :: bs).length) ↔
        (px ≤ X ∧ X < px + 8 ∧ py + 1 ≤ Y ∧ Y < py + 1 + bs.length) := by
      simp only [List.length_cons]; omega
    simp only [h1, h2, decide_false, Bool.false_and, Bool.false_or]
    by_cases h3 : px ≤ X ∧ X < px + 8 ∧ py + 1 ≤ Y ∧ Y < py + 1 + bs.length
    · have h4 : Y - py = (Y - (py + 1)) + 1 := by omega
      rw [h4, List.getD_cons_succ]
    · simp only [h3, decide_false, Bool.false_and]

/-- The framebuffer after a draw, cell by cell: each cell of the grid is XORed with the sprite's pixel. -/
theorem cell_drawRows (bs : List Byte) (px py : Nat) (d : FrameBuffer × Bool) {X Y : Nat}
    (hX : X < 64) (hY : Y < 32) :
    cell (drawRows bs px py d).1 X Y = (cell d.1 X Y ^^ rowsPixel bs px py X Y) := by
  induction bs generalizing py d with
  | nil =>
    have : ¬ (px ≤ X ∧ X < px + 8 ∧ py ≤ Y ∧ Y < py + 0) := by omega
    simp only [drawRows, rowsPixel, List.length_nil, this, decide_false, Bool.false_and,
      Bool.xor_false]
  | cons b bs ih =>
    rw [drawRows, ih, drawRow_eq, cell_drawPixels, rowsPixel_cons, Bool.xor_assoc]
    congr 1
    by_cases hy : Y = py
    · have : rowsPixel bs px (py + 1) X Y = false := by
        have : ¬ (px ≤ X ∧ X < px + 8 ∧ py + 1 ≤ Y ∧ Y < py + 1 + bs.length) := by omega
        simp only [rowsPixel, this, decide_false, Bool.false_and]
      have h1 : (px ≤ X ∧ X < px + 8 ∧ Y = py ∧ X < 64 ∧ py < 32) ↔
          (px ≤ X ∧ X < px + 8 ∧ Y = py) := by omega
      simp only [this, h1, Bool.xor_false, Bool.or_false]
    · have h1 : ¬ (px ≤ X ∧ X < px + 8 ∧ Y = py ∧ X < 64 ∧ py < 32) := by omega
      have h2 : ¬ (px ≤ X ∧ X < px + 8 ∧ Y = py) := by omega
      simp only [h1, h2, decide_false, Bool.false_and, Bool.false_xor, Bool.false_or]

/-- The collision of a draw: some cell of the grid was lit where the sprite has a pixel. -/
theorem hit_drawRows (bs : List Byte) (px py : Nat) (d : FrameBuffer × Bool) :
    (drawRows bs px py d).2 = true ↔
      d.2 = true ∨ ∃ X Y, X < 64 ∧ Y < 32 ∧ rowsPixel bs px py X Y = true ∧
        cell d.1 X Y = true := by
  induction bs generalizing py d with
  | nil =>
    have : ∀ X Y, rowsPixel [] px py X Y = false := by
      intro X Y
      have : ¬ (px ≤ X ∧ X < px + 8 ∧ py ≤ Y ∧ Y < py + 0) := by omega
      simp only [rowsPixel, List.length_nil, this, decide_false, Bool.false_and]
    simp [drawRows, this]
  | cons b bs ih =>
    rw [drawRows, ih, drawRow_eq, hit_drawPixels]
    have keep : ∀ X Y, rowsPixel bs px (py + 1) X Y = true →
        cell (drawPixels b px py 8 d).1 X Y = cell d.1 X Y := by
      intro X Y h
      rw [cell_drawPixels]
      have : ¬ (px ≤ X ∧ X < px + 8 ∧ Y = py ∧ X < 64 ∧ py < 32) := by
        simp only [rowsPixel, Bool.and_eq_true, decide_eq_true_eq] at h
        omega
      simp only [this, decide_false, Bool.false_and, Bool.xor_false]
    constructor
    · rintro ((h | ⟨c, hc, h1, h2⟩) | ⟨X, Y, hX, hY, h1, h2⟩)
      · exact .inl h
      · refine .inr ⟨px + c, py, ?_, ?_, ?_, h2⟩
        · by_contra hn; rw [cell_off (by omega)] at h2; simp at h2
        · by_contra hn; rw [cell_off (by omega)] at h2; simp at h2
        · have h3 : px ≤ px + c ∧ px + c < px + 8 ∧ py = py := by omega
          have h4 : px + c - px = c := by omega
          simp only [rowsPixel_cons, h3, h4, h1, and_self, decide_true, Bool.and_self, Bool.true_or]
      · refine .inr ⟨X, Y, hX, hY, ?_, (keep X Y h1) ▸ h2⟩
        simp only [rowsPixel_cons, h1, Bool.or_true]
    · rintro (h | ⟨X, Y, hX, hY, h1, h2⟩)
      · exact .inl (.inl h)
      · rw [rowsPixel_cons, Bool.or_eq_true] at h1
        rcases h1 with h1 | h1
        · simp only [Bool.and_eq_true, decide_eq_true_eq] at h1
          obtain ⟨⟨h3, h4, rfl⟩, h5⟩ := h1
          refine .inl (.inr ⟨X - px, by omega, h5, ?_⟩)
          rwa [Nat.add_sub_cancel' h3]
        · exact .inr ⟨X, Y, hX, hY, h1, (keep X Y h1).trans h2⟩

/-- The sprite of a DRW is the pixels of its rows. -/
theorem rowsPixel_bytesAtI (s : State) (x y : Reg) (n : Nibble) (X Y : Nat) :
    rowsPixel (s.bytesAtI n.toNat) (s.getV x).toNat (s.getV y).toNat X Y =
      spritePixel s x y n X Y := by
  unfold rowsPixel spritePixel
  rw [State.length_bytesAtI]
  by_cases h : (s.getV x).toNat ≤ X ∧ X < (s.getV x).toNat + 8 ∧ (s.getV y).toNat ≤ Y ∧
      Y < (s.getV y).toNat + n.toNat
  · rw [State.getD_bytesAtI s (by omega)]
  · simp only [decide_eq_false h, Bool.false_and]

end Sys2Proof.Machine
end

