-- ==== Sys2Proof/Laws/Exec.lean ====
section
/-! SUPPORT. What each instruction that has more than one outcome can do, said once, and what a step can
do: proofs about instructions and steps start from these and do not unfold the meanings. -/

namespace Sys2Proof.Machine

variable {s t : State}

/-- The outcome `next` is injective. -/
theorem next_inj {t t' : State} (h : (.next t : StepOutcome) = .next t') : t = t' := by
  injection h

/-! ### The meanings that can fault or wait -/

theorem execRet_cases (h : execRet s = .next t) :
    (s.sp.val = 0 ∧ t = s.takeFault .stackUnderflow (encode .ret)) ∨
    (∃ _ : s.sp.val ≠ 0,
      t = { s with sp := ⟨s.sp.val - 1, by omega⟩, pc := s.stack[s.sp.val - 1] }) := by
  unfold execRet at h
  split at h
  · rename_i hp
    obtain ⟨h0, rfl, rfl⟩ := State.pop_eq_some.1 hp
    exact .inr ⟨h0, (next_inj h).symm⟩
  · rename_i hp
    exact .inl ⟨State.pop_eq_none.1 hp, (next_inj h).symm⟩

theorem execCall_cases {nnn : Addr12} (h : execCall nnn s = .next t) :
    (s.sp.val = 16 ∧ t = s.takeFault .stackOverflow (encode (.call nnn))) ∨
    (∃ _ : s.sp.val < 16,
      t = { s with stack := s.stack.set s.sp.val (s.pc + 2), sp := ⟨s.sp.val + 1, by omega⟩,
                   pc := target nnn }) := by
  unfold execCall at h
  split at h
  · rename_i hp
    obtain ⟨h0, rfl⟩ := State.push_eq_some.1 hp
    exact .inr ⟨h0, (next_inj h).symm⟩
  · rename_i hp
    exact .inl ⟨State.push_eq_none.1 hp, (next_inj h).symm⟩

theorem storeAtI_cases {i : Instr} {bytes : List Byte} (h : storeAtI i bytes s = .next t) :
    (∃ k, s.writeFault bytes.length = some k ∧ t = s.takeFault k (encode i)) ∨
    (s.writeFault bytes.length = none ∧
      t = { s with mem := s.mem.writeBytes s.I.toNat bytes, pc := s.pc + 2 }) := by
  unfold storeAtI at h
  split at h
  · exact .inl ⟨_, ‹_›, (next_inj h).symm⟩
  · exact .inr ⟨‹_›, (next_inj h).symm⟩

theorem execLdVxMem_cases {x : Reg} (h : execLdVxMem x s = .next t) :
    (∃ k, s.readFault (x.val + 1) = some k ∧ t = s.takeFault k (encode (.ldVxMem x))) ∨
    (s.readFault (x.val + 1) = none ∧
      t = { s with V := loadRegs s.V 0 (s.bytesAtI (x.val + 1)), pc := s.pc + 2 }) := by
  unfold execLdVxMem at h
  split at h
  · exact .inl ⟨_, ‹_›, (next_inj h).symm⟩
  · exact .inr ⟨‹_›, (next_inj h).symm⟩

/-- The framebuffer and the collision of a DRW. -/
def drawn (s : State) (x y : Reg) (n : Nibble) : FrameBuffer × Bool :=
  drawRows (s.bytesAtI n.toNat) (s.getV x).toNat (s.getV y).toNat (s.fb, false)

theorem execDrw_cases {x y : Reg} {n : Nibble} (h : execDrw x y n s = .next t) :
    (∃ k, s.readFault n.toNat = some k ∧ t = s.takeFault k (encode (.drw x y n))) ∨
    (s.readFault n.toNat = none ∧
      t = { s with fb := (drawn s x y n).1,
                   V := s.V.set VF.val (flagByte (drawn s x y n).2),
                   pc := s.pc + 2 }) := by
  unfold execDrw at h
  split at h
  · exact .inl ⟨_, ‹_›, (next_inj h).symm⟩
  · exact .inr ⟨‹_›, (next_inj h).symm⟩

/-- A cell after a draw is the cell before it XOR the sprite's pixel. -/
theorem cell_drawn (s : State) (x y : Reg) (n : Nibble) {X Y : Nat} (hX : X < 64) (hY : Y < 32) :
    cell (drawn s x y n).1 X Y = (cell s.fb X Y ^^ spritePixel s x y n X Y) := by
  rw [drawn, cell_drawRows _ _ _ _ hX hY, rowsPixel_bytesAtI]

/-- A draw collides when a lit cell of the grid lies under a pixel of the sprite. -/
theorem hit_drawn (s : State) (x y : Reg) (n : Nibble) :
    (drawn s x y n).2 = true ↔
      ∃ X Y, X < 64 ∧ Y < 32 ∧ spritePixel s x y n X Y = true ∧ cell s.fb X Y = true := by
  rw [drawn, hit_drawRows]
  simp [rowsPixel_bytesAtI]

theorem execSkp_cases {x : Reg} (h : execSkp x s = .next t) :
    (16 ≤ (s.getV x).toNat ∧ t = s.takeFault .keyIndexOutOfRange (encode (.skp x))) ∨
    (∃ down, s.latch (s.getV x) = some down ∧ t = s.skipIf down) := by
  unfold execSkp at h
  split at h
  · exact .inr ⟨_, ‹_›, (next_inj h).symm⟩
  · exact .inl ⟨State.latch_eq_none.1 ‹_›, (next_inj h).symm⟩

theorem execSknp_cases {x : Reg} (h : execSknp x s = .next t) :
    (16 ≤ (s.getV x).toNat ∧ t = s.takeFault .keyIndexOutOfRange (encode (.sknp x))) ∨
    (∃ down, s.latch (s.getV x) = some down ∧ t = s.skipIf (!down)) := by
  unfold execSknp at h
  split at h
  · exact .inr ⟨_, ‹_›, (next_inj h).symm⟩
  · exact .inl ⟨State.latch_eq_none.1 ‹_›, (next_inj h).symm⟩

theorem execLdVxK_cases {x : Reg} (h : execLdVxK x s = .next t) :
    (∃ k, keySelect s.key = some k ∧ t = (s.setV x (keyByte k)).advance) ∨
    (keySelect s.key = none ∧ t = { s with waitX := x, status := .waitingForKey }) := by
  unfold execLdVxK at h
  split at h
  · exact .inl ⟨_, ‹_›, (next_inj h).symm⟩
  · exact .inr ⟨‹_›, (next_inj h).symm⟩

theorem stepWaiting_cases (s : State) :
    (∃ k, keySelect s.key = some k ∧
      stepWaiting s = { (s.setV s.waitX (keyByte k)).advance with status := .running }) ∨
    (keySelect s.key = none ∧ stepWaiting s = s) := by
  unfold stepWaiting
  split
  · exact .inl ⟨_, ‹_›, rfl⟩
  · exact .inr ⟨‹_›, rfl⟩

/-! ### Faults, status and memory over all instructions -/

/-- Taking a fault is what R150 says, and nothing else. -/
theorem faultTaken_takeFault (k : Fault) (op : Word) (s : State) :
    FaultTaken k op s (s.takeFault k op) := by
  refine ⟨rfl, rfl, rfl, rfl, fun p hp => ?_⟩
  cases p <;> simp_all [Keeps]

/-- All an instruction can do to the run status and the fault record: keep them, halt, fault, or enter
the key wait. -/
theorem exec_status {i : Instr} (h : exec i s = .next t) :
    (t.status = s.status ∧ t.faultKind = s.faultKind ∧ t.faultAddr = s.faultAddr ∧
      t.faultOpcode = s.faultOpcode) ∨
    (i = .halt ∧ t = { s.advance with status := .halted }) ∨
    (∃ k, t = s.takeFault k (encode i)) ∨
    (∃ x, i = .ldVxK x ∧ keySelect s.key = none ∧
      t = { s with waitX := x, status := .waitingForKey }) := by
  cases i <;> simp only [exec] at h
  case halt => exact .inr (.inl ⟨rfl, (next_inj h).symm⟩)
  case ldVxK =>
    rcases execLdVxK_cases h with ⟨_, _, rfl⟩ | ⟨hn, rfl⟩
    · left; simp
    · simp [hn]
  case ret =>
    rcases execRet_cases h with ⟨_, rfl⟩ | ⟨_, rfl⟩
    · exact .inr (.inr (.inl ⟨_, rfl⟩))
    · left; simp
  case call =>
    rcases execCall_cases h with ⟨_, rfl⟩ | ⟨_, rfl⟩
    · exact .inr (.inr (.inl ⟨_, rfl⟩))
    · left; simp
  case drw =>
    rcases execDrw_cases h with ⟨_, _, rfl⟩ | ⟨_, rfl⟩
    · exact .inr (.inr (.inl ⟨_, rfl⟩))
    · left; simp
  case skp =>
    rcases execSkp_cases h with ⟨_, rfl⟩ | ⟨_, _, rfl⟩
    · exact .inr (.inr (.inl ⟨_, rfl⟩))
    · left; simp
  case sknp =>
    rcases execSknp_cases h with ⟨_, rfl⟩ | ⟨_, _, rfl⟩
    · exact .inr (.inr (.inl ⟨_, rfl⟩))
    · left; simp
  case ldB =>
    rcases storeAtI_cases h with ⟨_, _, rfl⟩ | ⟨_, rfl⟩
    · exact .inr (.inr (.inl ⟨_, rfl⟩))
    · left; simp
  case ldMemVx =>
    rcases storeAtI_cases h with ⟨_, _, rfl⟩ | ⟨_, rfl⟩
    · exact .inr (.inr (.inl ⟨_, rfl⟩))
    · left; simp
  case ldVxMem =>
    rcases execLdVxMem_cases h with ⟨_, _, rfl⟩ | ⟨_, rfl⟩
    · exact .inr (.inr (.inl ⟨_, rfl⟩))
    · left; simp
  all_goals (left; rw [← next_inj h]; exact ⟨rfl, rfl, rfl, rfl⟩)

/-- All an instruction can do to memory: nothing, or one of the two stores, which passed its checks. -/
theorem exec_mem {i : Instr} (h : exec i s = .next t) :
    t.mem = s.mem ∨
    (∃ x, i = .ldB x ∧ s.writeFault 3 = none ∧
      t.mem = s.mem.writeBytes s.I.toNat (bcdDigits (s.getV x))) ∨
    (∃ x : Reg, i = .ldMemVx x ∧ s.writeFault (x.val + 1) = none ∧
      t.mem = s.mem.writeBytes s.I.toNat (s.regsUpTo x)) := by
  cases i <;> simp only [exec] at h
  case ldB x =>
    rcases storeAtI_cases h with ⟨_, _, rfl⟩ | ⟨h1, rfl⟩
    · exact .inl rfl
    · exact .inr (.inl ⟨x, rfl, h1, rfl⟩)
  case ldMemVx x =>
    rcases storeAtI_cases h with ⟨_, _, rfl⟩ | ⟨h1, rfl⟩
    · exact .inl rfl
    · rw [State.length_regsUpTo] at h1
      exact .inr (.inr ⟨x, rfl, h1, rfl⟩)
  case ret => rcases execRet_cases h with ⟨_, rfl⟩ | ⟨_, rfl⟩ <;> exact .inl rfl
  case call => rcases execCall_cases h with ⟨_, rfl⟩ | ⟨_, rfl⟩ <;> exact .inl rfl
  case drw => rcases execDrw_cases h with ⟨_, _, rfl⟩ | ⟨_, rfl⟩ <;> exact .inl rfl
  case skp => rcases execSkp_cases h with ⟨_, rfl⟩ | ⟨_, _, rfl⟩ <;> exact .inl rfl
  case sknp => rcases execSknp_cases h with ⟨_, rfl⟩ | ⟨_, _, rfl⟩ <;> exact .inl rfl
  case ldVxMem => rcases execLdVxMem_cases h with ⟨_, _, rfl⟩ | ⟨_, rfl⟩ <;> exact .inl rfl
  case ldVxK => rcases execLdVxK_cases h with ⟨_, _, rfl⟩ | ⟨_, rfl⟩ <;> exact .inl rfl
  all_goals exact .inl (by rw [← next_inj h]; rfl)

/-! ### The fetch and the step -/

theorem State.fetch_eq_none : s.fetch = none ↔ 0xFFE < s.pc.toNat := by
  unfold State.fetch
  split <;> simp <;> omega

theorem State.fetch_eq_some {op : Word} :
    s.fetch = some op ↔ s.pc.toNat ≤ 0xFFE ∧ s.mem.readWord s.pc.toNat = op := by
  unfold State.fetch
  split <;> simp <;> omega

/-- All a step can do. -/
inductive StepCase (s t : State) : Prop
  | ended (h : s.status = .halted ∨ s.status = .faulted) (ht : t = s)
  | waiting (h : s.status = .waitingForKey) (ht : t = stepWaiting s)
  | badPc (h : s.status = .running) (hpc : 0xFFE < s.pc.toNat)
      (ht : t = s.takeFault .programCounterOutOfBounds 0)
  | badWord (h : s.status = .running) (hpc : s.pc.toNat ≤ 0xFFE)
      (hw : decodeWord (s.mem.readWord s.pc.toNat) = none)
      (ht : t = s.takeFault .unsupportedOpcode (s.mem.readWord s.pc.toNat))
  | instr (h : s.status = .running) (hpc : s.pc.toNat ≤ 0xFFE) (i : Instr)
      (hw : decodeWord (s.mem.readWord s.pc.toNat) = some i) (ht : exec i s = .next t)

theorem step_cases (h : step s = .next t) : StepCase s t := by
  unfold step at h
  split at h
  · exact .ended (.inl ‹_›) (next_inj h).symm
  · exact .ended (.inr ‹_›) (next_inj h).symm
  · exact .waiting ‹_› (next_inj h).symm
  · split at h
    · exact .badPc ‹_› (State.fetch_eq_none.1 ‹_›) (next_inj h).symm
    · rename_i hs _ op hf
      obtain ⟨hpc, rfl⟩ := State.fetch_eq_some.1 hf
      split at h
      · exact .badWord hs hpc ‹_› (next_inj h).symm
      · exact .instr hs hpc _ ‹_› h

/-- A step of a Running core, from its fetch and its decoding. -/
theorem step_running (h : s.status = .running) (hpc : s.pc.toNat ≤ 0xFFE) :
    step s = match decodeWord (s.mem.readWord s.pc.toNat) with
      | none => .next (s.takeFault .unsupportedOpcode (s.mem.readWord s.pc.toNat))
      | some i => exec i s := by
  have hf : s.fetch = some (s.mem.readWord s.pc.toNat) := State.fetch_eq_some.2 ⟨hpc, rfl⟩
  cases hd : decodeWord (s.mem.readWord s.pc.toNat) <;> simp [step, h, hf, hd]

end Sys2Proof.Machine
end

