-- ==== Sys2Proof/Laws/PerInstr.lean ====
section
/-! SUPPORT. The family `RowMatch`: every instruction's word matches its own row of
spec/opcode_table.json ("a word `w` is the instruction iff `w & mask = match`"); and the rows are
pairwise disjoint. -/

namespace Sys2Proof

/-! ### What a mask leaves of a word of each format -/

theorem wordNNN_and_f (f : Nibble) (nnn : Addr12) :
    wordNNN f nnn &&& 0xF000#16 = wordNNN f 0 := by
  apply BitVec.eq_of_getLsbD_eq
  intro i hi
  rw [BitVec.getLsbD_and, bit_wordNNN, bit_wordNNN]
  interval_cases i <;> simp

theorem wordXNN_and_f (f : Nibble) (x : Reg) (nn : Byte) :
    wordXNN f x nn &&& 0xF000#16 = wordXNN f 0 0 := by
  apply BitVec.eq_of_getLsbD_eq
  intro i hi
  rw [BitVec.getLsbD_and, bit_wordXNN, bit_wordXNN]
  interval_cases i <;> simp

theorem wordXNN_and_fnn (f : Nibble) (x : Reg) (nn : Byte) :
    wordXNN f x nn &&& 0xF0FF#16 = wordXNN f 0 nn := by
  apply BitVec.eq_of_getLsbD_eq
  intro i hi
  rw [BitVec.getLsbD_and, bit_wordXNN, bit_wordXNN]
  interval_cases i <;> simp

theorem wordXYN_and_f (f : Nibble) (x y : Reg) (n : Nibble) :
    wordXYN f x y n &&& 0xF000#16 = wordXYN f 0 0 0 := by
  apply BitVec.eq_of_getLsbD_eq
  intro i hi
  rw [BitVec.getLsbD_and, bit_wordXYN, bit_wordXYN]
  interval_cases i <;> simp

theorem wordXYN_and_fn (f : Nibble) (x y : Reg) (n : Nibble) :
    wordXYN f x y n &&& 0xF00F#16 = wordXYN f 0 0 n := by
  apply BitVec.eq_of_getLsbD_eq
  intro i hi
  rw [BitVec.getLsbD_and, bit_wordXYN, bit_wordXYN]
  interval_cases i <;> simp

end Sys2Proof

namespace Sys2Proof.Laws.RowMatch

/-- The instruction's word, under its row's mask, is its row's match. -/
def Statement (i : Instr) : Prop := encode i &&& i.row.mask = i.row.value

theorem cls : Statement .cls := rfl

theorem ret : Statement .ret := rfl

theorem halt : Statement .halt := rfl

theorem jp (nnn : Addr12) : Statement (.jp nnn) := by
  show wordNNN 0x1 nnn &&& 0xF000#16 = 0x1000#16
  rw [wordNNN_and_f]; rfl

theorem call (nnn : Addr12) : Statement (.call nnn) := by
  show wordNNN 0x2 nnn &&& 0xF000#16 = 0x2000#16
  rw [wordNNN_and_f]; rfl

theorem seImm (x : Reg) (nn : Byte) : Statement (.seImm x nn) := by
  show wordXNN 0x3 x nn &&& 0xF000#16 = 0x3000#16
  rw [wordXNN_and_f]; rfl

theorem sneImm (x : Reg) (nn : Byte) : Statement (.sneImm x nn) := by
  show wordXNN 0x4 x nn &&& 0xF000#16 = 0x4000#16
  rw [wordXNN_and_f]; rfl

theorem seReg (x y : Reg) : Statement (.seReg x y) := by
  show wordXYN 0x5 x y 0x0 &&& 0xF00F#16 = 0x5000#16
  rw [wordXYN_and_fn]; rfl

theorem ldImm (x : Reg) (nn : Byte) : Statement (.ldImm x nn) := by
  show wordXNN 0x6 x nn &&& 0xF000#16 = 0x6000#16
  rw [wordXNN_and_f]; rfl

theorem addImm (x : Reg) (nn : Byte) : Statement (.addImm x nn) := by
  show wordXNN 0x7 x nn &&& 0xF000#16 = 0x7000#16
  rw [wordXNN_and_f]; rfl

theorem ldReg (x y : Reg) : Statement (.ldReg x y) := by
  show wordXYN 0x8 x y 0x0 &&& 0xF00F#16 = 0x8000#16
  rw [wordXYN_and_fn]; rfl

theorem orReg (x y : Reg) : Statement (.orReg x y) := by
  show wordXYN 0x8 x y 0x1 &&& 0xF00F#16 = 0x8001#16
  rw [wordXYN_and_fn]; rfl

theorem andReg (x y : Reg) : Statement (.andReg x y) := by
  show wordXYN 0x8 x y 0x2 &&& 0xF00F#16 = 0x8002#16
  rw [wordXYN_and_fn]; rfl

theorem xorReg (x y : Reg) : Statement (.xorReg x y) := by
  show wordXYN 0x8 x y 0x3 &&& 0xF00F#16 = 0x8003#16
  rw [wordXYN_and_fn]; rfl

theorem addReg (x y : Reg) : Statement (.addReg x y) := by
  show wordXYN 0x8 x y 0x4 &&& 0xF00F#16 = 0x8004#16
  rw [wordXYN_and_fn]; rfl

theorem subReg (x y : Reg) : Statement (.subReg x y) := by
  show wordXYN 0x8 x y 0x5 &&& 0xF00F#16 = 0x8005#16
  rw [wordXYN_and_fn]; rfl

theorem shr (x y : Reg) : Statement (.shr x y) := by
  show wordXYN 0x8 x y 0x6 &&& 0xF00F#16 = 0x8006#16
  rw [wordXYN_and_fn]; rfl

theorem subn (x y : Reg) : Statement (.subn x y) := by
  show wordXYN 0x8 x y 0x7 &&& 0xF00F#16 = 0x8007#16
  rw [wordXYN_and_fn]; rfl

theorem shl (x y : Reg) : Statement (.shl x y) := by
  show wordXYN 0x8 x y 0xE &&& 0xF00F#16 = 0x800E#16
  rw [wordXYN_and_fn]; rfl

theorem sneReg (x y : Reg) : Statement (.sneReg x y) := by
  show wordXYN 0x9 x y 0x0 &&& 0xF00F#16 = 0x9000#16
  rw [wordXYN_and_fn]; rfl

theorem ldI (nnn : Addr12) : Statement (.ldI nnn) := by
  show wordNNN 0xA nnn &&& 0xF000#16 = 0xA000#16
  rw [wordNNN_and_f]; rfl

theorem jpV0 (nnn : Addr12) : Statement (.jpV0 nnn) := by
  show wordNNN 0xB nnn &&& 0xF000#16 = 0xB000#16
  rw [wordNNN_and_f]; rfl

theorem rnd (x : Reg) (nn : Byte) : Statement (.rnd x nn) := by
  show wordXNN 0xC x nn &&& 0xF000#16 = 0xC000#16
  rw [wordXNN_and_f]; rfl

theorem drw (x y : Reg) (n : Nibble) : Statement (.drw x y n) := by
  show wordXYN 0xD x y n &&& 0xF000#16 = 0xD000#16
  rw [wordXYN_and_f]; rfl

theorem skp (x : Reg) : Statement (.skp x) := by
  show wordXNN 0xE x 0x9E &&& 0xF0FF#16 = 0xE09E#16
  rw [wordXNN_and_fnn]; rfl

theorem sknp (x : Reg) : Statement (.sknp x) := by
  show wordXNN 0xE x 0xA1 &&& 0xF0FF#16 = 0xE0A1#16
  rw [wordXNN_and_fnn]; rfl

theorem ldVxDT (x : Reg) : Statement (.ldVxDT x) := by
  show wordXNN 0xF x 0x07 &&& 0xF0FF#16 = 0xF007#16
  rw [wordXNN_and_fnn]; rfl

theorem ldVxK (x : Reg) : Statement (.ldVxK x) := by
  show wordXNN 0xF x 0x0A &&& 0xF0FF#16 = 0xF00A#16
  rw [wordXNN_and_fnn]; rfl

theorem ldDTVx (x : Reg) : Statement (.ldDTVx x) := by
  show wordXNN 0xF x 0x15 &&& 0xF0FF#16 = 0xF015#16
  rw [wordXNN_and_fnn]; rfl

theorem ldSTVx (x : Reg) : Statement (.ldSTVx x) := by
  show wordXNN 0xF x 0x18 &&& 0xF0FF#16 = 0xF018#16
  rw [wordXNN_and_fnn]; rfl

theorem addI (x : Reg) : Statement (.addI x) := by
  show wordXNN 0xF x 0x1E &&& 0xF0FF#16 = 0xF01E#16
  rw [wordXNN_and_fnn]; rfl

theorem ldF (x : Reg) : Statement (.ldF x) := by
  show wordXNN 0xF x 0x29 &&& 0xF0FF#16 = 0xF029#16
  rw [wordXNN_and_fnn]; rfl

theorem ldB (x : Reg) : Statement (.ldB x) := by
  show wordXNN 0xF x 0x33 &&& 0xF0FF#16 = 0xF033#16
  rw [wordXNN_and_fnn]; rfl

theorem ldMemVx (x : Reg) : Statement (.ldMemVx x) := by
  show wordXNN 0xF x 0x55 &&& 0xF0FF#16 = 0xF055#16
  rw [wordXNN_and_fnn]; rfl

theorem ldVxMem (x : Reg) : Statement (.ldVxMem x) := by
  show wordXNN 0xF x 0x65 &&& 0xF0FF#16 = 0xF065#16
  rw [wordXNN_and_fnn]; rfl

/-- Of one example of each instruction, the rows. -/
def rows : List Row :=
  [Instr.cls, .ret, .halt, .jp 0, .call 0, .seImm 0 0, .sneImm 0 0].map Instr.row ++
  [Instr.seReg 0 0, .ldImm 0 0, .addImm 0 0, .ldReg 0 0, .orReg 0 0, .andReg 0 0].map Instr.row ++
  [Instr.xorReg 0 0, .addReg 0 0, .subReg 0 0, .shr 0 0, .subn 0 0, .shl 0 0].map Instr.row ++
  [Instr.sneReg 0 0, .ldI 0, .jpV0 0, .rnd 0 0, .drw 0 0 0, .skp 0, .sknp 0].map Instr.row ++
  [Instr.ldVxDT 0, .ldVxK 0, .ldDTVx 0, .ldSTVx 0, .addI 0, .ldF 0].map Instr.row ++
  [Instr.ldB 0, .ldMemVx 0, .ldVxMem 0].map Instr.row

/-- No word matches two rows: "the 35 patterns are pairwise disjoint". -/
theorem rows_disjoint :
    rows.Pairwise (fun r q => (r.value ^^^ q.value) &&& (r.mask &&& q.mask) ≠ 0) := by decide

theorem rows_length : rows.length = 35 := by decide

end Sys2Proof.Laws.RowMatch
end

