-- ==== Sys2Proof/Tests/Slice0.lean ====
section
/-! SUPPORT. Tests of the model on small states: the checks of WellFormed, the words of every
constructor, one or two steps per instruction, and a witness for the hypotheses of every statement.
Expected results come from the spec: the encodings from 30_encoding.md R54 to R60, the results from the
vectors (V-…) of 95_test_vectors.md or the examples of the instruction rules. -/

namespace Sys2Proof.Tests

open Sys2Proof Sys2Proof.Machine

/-! ### Helpers -/

/-- The outcome is a next state with the property. -/
def answers (o : StepOutcome) (p : State → Bool) : Bool :=
  match o with
  | .next t => p t
  | _ => false

theorem next_of {o : StepOutcome} {p : State → Bool} (h : answers o p = true) :
    ∃ t, o = .next t ∧ p t = true := by
  cases o with
  | next t => exact ⟨t, rfl, h⟩
  | fault k => exact absurd h (by simp [answers])
  | refused r => exact absurd h (by simp [answers])

/-- The state after `initialize` with one word at 0x200, as the vectors start. -/
def start (op : Word) : State := { State.reset with mem := Memory.placeWord [] 0x200 op }

/-- Registers overridden. -/
def withV (l : List (Reg × Byte)) (s : State) : State := l.foldl (fun s p => s.setV p.1 p.2) s

/-- Bytes of memory overridden. -/
def withMem (a : Nat) (bs : List Byte) (s : State) : State := { s with mem := s.mem.writeBytes a bs }

/-- A cell lit. -/
def withCell (X : Fin 64) (Y : Fin 32) (s : State) : State :=
  { s with fb := s.fb.set Y.val (s.fb[Y.val].set X.val true) }

/-- A key down. -/
def withKey (k : Key) (s : State) : State := setKey k true s

/-- The fault of a state: status Faulted, kind, address, opcode. -/
def faulted (k : Fault) (a op : Word) (t : State) : Bool :=
  t.status == .faulted && t.faultKind == some k && t.faultAddr == a && t.faultOpcode == op

/-- The cell (X, Y). -/
def lit (t : State) (X : Fin 64) (Y : Fin 32) : Bool := t.fb[Y.val][X.val]

/-- A font other than the default one. -/
def otherFont : Font := (Config.defaultFont.set 0 0x60).set 79 0

/-! ### WellFormed: one ill-formed term for each check, which the check refuses -/

theorem test_wf_fields_nn :
    Fields.wf { f := 6, x := 0xA, y := 0, n := 0xA, nn := 0x0B, nnn := 0xA0A } = false := by decide
theorem test_wf_fields_nnn :
    Fields.wf { f := 6, x := 0xA, y := 0, n := 0xA, nn := 0x0A, nnn := 0xB0A } = false := by decide
theorem test_wf_fields_of_word : (fieldsOf 0x6A0A).wf = true := by decide
theorem test_wf_halt_group : haltWordOk 0x10FD = false := by decide
theorem test_wf_halt_cls : haltWordOk 0x00E0 = false := by decide
theorem test_wf_halt_ret : haltWordOk 0x00EE = false := by decide
theorem test_wf_halt_default : haltWordOk Config.haltOpcode = true := by decide
theorem test_wf_font_length : fontOk (Config.defaultFontBytes.drop 1) = false := by decide
theorem test_wf_font_low_nibble : fontOk (0xF1 :: Config.defaultFontBytes.drop 1) = false := by decide
theorem test_wf_font_default : fontOk Config.defaultFontBytes = true := by decide
theorem test_wf_rom_too_long : romFits (List.replicate 0xE01 0) = false := by
  rw [romFits, List.length_replicate]; decide
theorem test_wf_rom_longest : romFits (List.replicate 0xE00 0) = true := by
  rw [romFits, List.length_replicate]; decide

/-! ### Decoding: the word of every constructor, bit by bit (R54 to R59) -/

theorem test_decode_fixed :
    decodeWord 0b0000000011100000 = some .cls ∧ decodeWord 0b0000000011101110 = some .ret ∧
    decodeWord 0b0000000011111101 = some .halt := by decide
theorem test_decode_nnn :
    decodeWord 0b0001101010111100 = some (.jp 0xABC) ∧
    decodeWord 0b0010101010111100 = some (.call 0xABC) ∧
    decodeWord 0b1010101010111100 = some (.ldI 0xABC) ∧
    decodeWord 0b1011101010111100 = some (.jpV0 0xABC) := by decide
theorem test_decode_xnn :
    decodeWord 0b0011101000001011 = some (.seImm 0xA 0x0B) ∧
    decodeWord 0b0100101000001011 = some (.sneImm 0xA 0x0B) ∧
    decodeWord 0b0110101000001011 = some (.ldImm 0xA 0x0B) ∧
    decodeWord 0b0111101000001011 = some (.addImm 0xA 0x0B) ∧
    decodeWord 0b1100101000001011 = some (.rnd 0xA 0x0B) := by decide
theorem test_decode_xy_skips :
    decodeWord 0b0101000100100000 = some (.seReg 1 2) ∧
    decodeWord 0b1001000100100000 = some (.sneReg 1 2) := by decide
theorem test_decode_xy_group8 :
    decodeWord 0b1000000100100000 = some (.ldReg 1 2) ∧
    decodeWord 0b1000000100100001 = some (.orReg 1 2) ∧
    decodeWord 0b1000000100100010 = some (.andReg 1 2) ∧
    decodeWord 0b1000000100100011 = some (.xorReg 1 2) ∧
    decodeWord 0b1000000100100100 = some (.addReg 1 2) ∧
    decodeWord 0b1000000100100101 = some (.subReg 1 2) ∧
    decodeWord 0b1000000100100110 = some (.shr 1 2) ∧
    decodeWord 0b1000000100100111 = some (.subn 1 2) ∧
    decodeWord 0b1000000100101110 = some (.shl 1 2) := by decide
theorem test_decode_xyn : decodeWord 0b1101000100100101 = some (.drw 1 2 5) := by decide
theorem test_decode_groupE :
    decodeWord 0b1110001110011110 = some (.skp 3) ∧
    decodeWord 0b1110001110100001 = some (.sknp 3) := by decide
theorem test_decode_groupF :
    decodeWord 0b1111010100000111 = some (.ldVxDT 5) ∧
    decodeWord 0b1111010100001010 = some (.ldVxK 5) ∧
    decodeWord 0b1111010100010101 = some (.ldDTVx 5) ∧
    decodeWord 0b1111010100011000 = some (.ldSTVx 5) ∧
    decodeWord 0b1111010100011110 = some (.addI 5) ∧
    decodeWord 0b1111010100101001 = some (.ldF 5) ∧
    decodeWord 0b1111010100110011 = some (.ldB 5) ∧
    decodeWord 0b1111010101010101 = some (.ldMemVx 5) ∧
    decodeWord 0b1111010101100101 = some (.ldVxMem 5) := by decide
/-- V-DEC-1 to V-DEC-9 and the extended words of R61. -/
theorem test_decode_unsupported :
    ([0x0000, 0x00E1, 0x0123, 0x00FE, 0x00FF, 0x00FB, 0x00FC, 0x00C1, 0x5121, 0x9001, 0x8128, 0x8008,
      0x800F, 0x812D, 0xE09F, 0xE000, 0xE1A0, 0xF000, 0xF030, 0xF075, 0xF085, 0xF154] : List Word).all
      (fun w => decodeWord w == none) = true := by decide
/-- Big-endian, the rest of the bytes kept (R32, R50). -/
theorem test_decode_bytes :
    decode [0x6A, 0x0A, 0x7A, 0x05] = .ok (.ldImm 0xA 0x0A, [0x7A, 0x05]) ∧
    decode [0x51, 0x21] = .error (.unsupportedOpcode 0x5121) ∧ decode [0x6A] = .error .truncated := by
  decide
theorem test_decodeTableWord : decodeTableWord 16 0xD125 = some (.drw 1 2 5) := by decide

/-! ### Control flow -/

/-- V-CF-6. -/
theorem test_ret : answers (step { start 0x00EE with sp := 1, stack := State.reset.stack.set 0 0xABC })
    (fun t => t.pc == 0xABC && t.sp == 0 && t.stack[0] == 0xABC) = true := by decide
/-- V-CF-7. -/
theorem test_ret_underflow : answers (step (start 0x00EE))
    (fun t => faulted .stackUnderflow 0x200 0x00EE t && t.pc == 0x200) = true := by decide
/-- V-CF-23. -/
theorem test_halt : answers (step (start 0x00FD))
    (fun t => t.status == .halted && t.pc == 0x202 && t.faultKind == none) = true := by decide
/-- V-CF-24. -/
theorem test_halt_at_the_top :
    answers (step (withMem 0xFFE [0x00, 0xFD] { State.reset with pc := 0xFFE }))
      (fun t => t.status == .halted && t.pc == 0x1000) = true := by decide
/-- V-CF-2. -/
theorem test_jp : answers (step (start 0x1FFF)) (fun t => t.pc == 0xFFF && t.status == .running) = true := by
  decide
/-- V-CF-4. -/
theorem test_call : answers (step { start 0x2300 with sp := 15 })
    (fun t => t.pc == 0x300 && t.sp == 16 && t.stack[15] == 0x202) = true := by decide
/-- V-CF-5. -/
theorem test_call_overflow : answers (step { start 0x2300 with sp := 16 })
    (fun t => faulted .stackOverflow 0x200 0x2300 t && t.pc == 0x200 && t.sp == 16) = true := by decide
/-- V-CF-8. -/
theorem test_seImm : answers (step (withV [(0xA, 0x0A)] (start 0x3A0A))) (fun t => t.pc == 0x204) = true := by
  decide
/-- V-CF-20. -/
theorem test_seImm_at_the_top :
    answers (step (withMem 0xFFE [0x30, 0x00] { State.reset with pc := 0xFFE }))
      (fun t => t.pc == 0x1002 && t.status == .running) = true := by decide
/-- V-CF-10. -/
theorem test_sneImm_equal : answers (step (withV [(0xA, 0x0A)] (start 0x4A0A))) (fun t => t.pc == 0x202) = true := by
  decide
/-- V-CF-11. -/
theorem test_sneImm : answers (step (withV [(0xA, 0x0B)] (start 0x4A0A))) (fun t => t.pc == 0x204) = true := by
  decide
/-- V-CF-12. -/
theorem test_seReg : answers (step (withV [(1, 7), (2, 7)] (start 0x5120))) (fun t => t.pc == 0x204) = true := by
  decide
/-- V-CF-13. -/
theorem test_seReg_unequal : answers (step (withV [(1, 7), (2, 8)] (start 0x5120))) (fun t => t.pc == 0x202) = true := by
  decide
/-- V-CF-15. -/
theorem test_sneReg : answers (step (withV [(1, 7), (2, 8)] (start 0x9120))) (fun t => t.pc == 0x204) = true := by
  decide
/-- V-CF-17. -/
theorem test_sneReg_same : answers (step (withV [(1, 9)] (start 0x9110))) (fun t => t.pc == 0x202) = true := by
  decide
/-- V-CF-19. -/
theorem test_jpV0 : answers (step (withV [(0, 0xFF)] (start 0xBFFF)))
    (fun t => t.pc == 0x10FE && t.status == .running) = true := by decide

/-! ### Load, arithmetic, logic, shifts, random -/

/-- V-ALU-29. -/
theorem test_ldImm : answers (step (start 0x6F42)) (fun t => t.getV VF == 0x42 && t.pc == 0x202) = true := by
  decide
/-- V-ALU-28. -/
theorem test_addImm : answers (step (withV [(1, 0xFF), (VF, 7)] (start 0x7101)))
    (fun t => t.getV 1 == 0 && t.getV VF == 7) = true := by decide
/-- V-ALU-24. -/
theorem test_ldReg : answers (step (withV [(1, 1), (2, 0xAB), (VF, 7)] (start 0x8120)))
    (fun t => t.getV 1 == 0xAB && t.getV VF == 7) = true := by decide
/-- V-ALU-25. -/
theorem test_or : answers (step (withV [(1, 0xF0), (2, 0x0F), (VF, 7)] (start 0x8121)))
    (fun t => t.getV 1 == 0xFF && t.getV VF == 7) = true := by decide
/-- V-ALU-26. -/
theorem test_and : answers (step (withV [(1, 0xF0), (2, 0x3C), (VF, 7)] (start 0x8122)))
    (fun t => t.getV 1 == 0x30 && t.getV VF == 7) = true := by decide
/-- V-ALU-27. -/
theorem test_xor : answers (step (withV [(1, 0xF0), (2, 0x3C), (VF, 7)] (start 0x8123)))
    (fun t => t.getV 1 == 0xCC && t.getV VF == 7) = true := by decide
/-- V-ALU-1. -/
theorem test_add : answers (step (withV [(1, 0xFF), (2, 1)] (start 0x8124)))
    (fun t => t.getV 1 == 0 && t.getV VF == 1) = true := by decide
/-- V-ALU-5. -/
theorem test_add_to_VF : answers (step (withV [(VF, 0xF0), (1, 0x20)] (start 0x8F14)))
    (fun t => t.getV VF == 1) = true := by decide
/-- V-ALU-7. -/
theorem test_sub : answers (step (withV [(1, 3), (2, 5)] (start 0x8125)))
    (fun t => t.getV 1 == 0xFE && t.getV VF == 0) = true := by decide
/-- V-ALU-12. -/
theorem test_sub_of_VF : answers (step (withV [(1, 5), (VF, 5)] (start 0x81F5)))
    (fun t => t.getV 1 == 0 && t.getV VF == 1) = true := by decide
/-- V-ALU-17. -/
theorem test_shr : answers (step (withV [(1, 5), (2, 0xAA)] (start 0x8126)))
    (fun t => t.getV 1 == 2 && t.getV VF == 1 && t.getV 2 == 0xAA) = true := by decide
/-- V-ALU-20. -/
theorem test_shr_VF : answers (step (withV [(VF, 2)] (start 0x8F06))) (fun t => t.getV VF == 0) = true := by
  decide
/-- V-ALU-14. -/
theorem test_subn : answers (step (withV [(1, 5), (2, 3)] (start 0x8127)))
    (fun t => t.getV 1 == 0xFE && t.getV VF == 0) = true := by decide
/-- V-ALU-16. -/
theorem test_subn_to_VF : answers (step (withV [(VF, 3), (1, 5)] (start 0x8F17)))
    (fun t => t.getV VF == 1) = true := by decide
/-- V-ALU-21. -/
theorem test_shl : answers (step (withV [(1, 0x81), (2, 0xAA)] (start 0x812E)))
    (fun t => t.getV 1 == 2 && t.getV VF == 1 && t.getV 2 == 0xAA) = true := by decide
/-- V-ALU-22. -/
theorem test_shl_no_carry : answers (step (withV [(1, 0x40)] (start 0x812E)))
    (fun t => t.getV 1 == 0x80 && t.getV VF == 0) = true := by decide
/-- V-ALU-30: the byte that `Rand()` gives is 0xA7. -/
theorem test_rnd : answers (rndWith 0xA7 3 0x0F (start 0xC30F))
    (fun t => t.getV 3 == 7 && t.pc == 0x202) = true := by decide

/-! ### Index register and memory -/

/-- V-IDX-1. -/
theorem test_ldI : answers (step (start 0xA123)) (fun t => t.I == 0x123) = true := by decide
/-- V-IDX-4. -/
theorem test_addI : answers (step (withV [(1, 1)] { start 0xF11E with I := 0xFFFF }))
    (fun t => t.I == 0 && t.getV VF == 1) = true := by decide
/-- V-IDX-4c. -/
theorem test_addI_VF : answers (step (withV [(VF, 1)] { start 0xFF1E with I := 0x0FFF }))
    (fun t => t.I == 0x1000 && t.getV VF == 1) = true := by decide
/-- V-IDX-6. -/
theorem test_ldF : answers (step (withV [(0, 0x1A)] (start 0xF029))) (fun t => t.I == 0x0032) = true := by
  decide
/-- V-IDX-10. -/
theorem test_ldB : answers (step (withV [(0, 0x7B)] { start 0xF033 with I := 0xFFD }))
    (fun t => t.mem.read 0xFFD == 1 && t.mem.read 0xFFE == 2 && t.mem.read 0xFFF == 3 && t.I == 0xFFD) = true := by
  decide
/-- V-IDX-12. -/
theorem test_ldB_font : answers (step (withV [(0, 7)] { start 0xF033 with I := 0x4E }))
    (fun t => faulted .fontRegionWrite 0x200 0xF033 t && t.mem.read 0x50 == 0) = true := by decide
/-- V-IDX-21. -/
theorem test_ldMemVx : answers (step (withV [(0, 0x77), (1, 0x88)] { start 0xF055 with I := 0x300 }))
    (fun t => t.mem.read 0x300 == 0x77 && t.mem.read 0x301 == 0 && t.I == 0x300) = true := by decide
/-- V-IDX-15. -/
theorem test_ldMemVx_bounds : answers (step { start 0xFF55 with I := 0xFF1 })
    (fun t => faulted .dataAddressOutOfBounds 0x200 0xFF55 t && t.mem == (start 0xFF55).mem) = true := by
  decide
/-- V-IDX-20 (three bytes of glyph 2), V3 kept. -/
theorem test_ldVxMem : answers (step (withV [(3, 9)] { start 0xF265 with I := 0x00A }))
    (fun t => t.getV 0 == 0xF0 && t.getV 1 == 0x10 && t.getV 2 == 0xF0 && t.getV 3 == 9 && t.I == 0x00A) = true := by
  decide
/-- V-IDX-18. -/
theorem test_ldVxMem_bounds : answers (step { start 0xF165 with I := 0xFFF })
    (fun t => faulted .dataAddressOutOfBounds 0x200 0xF165 t && t.getV 0 == 0) = true := by decide
/-- The canonical form: writing back what an unlisted address reads as removes the entry. -/
theorem test_memory_canonical :
    ((Memory.write [] 0x300 7).write 0x300 0 = []) ∧
    (Memory.write (Memory.write [] 0x301 2) 0x300 1 = [(0x300, 1), (0x301, 2)]) := by decide

/-- R4, R27: another font is what memory holds below 0x050, byte by byte, and nothing above. -/
theorem test_another_font :
    (State.resetWith otherFont).mem = [(0x00, 0x60), (0x4F, 0x00)] ∧
    (State.resetWith otherFont).mem.read 0x01 = 0x90 ∧ (State.resetWith otherFont).mem.read 0x50 = 0 := by
  decide

/-! ### Display -/

/-- V-DRW-1. -/
theorem test_cls : answers (step (withV [(VF, 5)] (withCell 0 0 (withCell 63 31 (start 0x00E0)))))
    (fun t => !lit t 0 0 && !lit t 63 31 && t.getV VF == 5 && t.pc == 0x202) = true := by decide
set_option maxRecDepth 4000 in
/-- V-DRW-7: the right edge clips, and bit 7 is the leftmost pixel. -/
theorem test_drw_clips :
    answers (step (withMem 0x300 [0xFF] (withV [(1, 60), (2, 31)] { start 0xD121 with I := 0x300 })))
      (fun t => lit t 60 31 && lit t 63 31 && !lit t 59 31 && !lit t 0 31 && !lit t 0 0 && t.getV VF == 0) = true := by
  decide
set_option maxRecDepth 4000 in
/-- V-DRW-14: glyph 0 over the lit cell (1,0). -/
theorem test_drw_collides : answers (step (withCell 1 0 (start 0xD005)))
    (fun t => lit t 0 0 && !lit t 1 0 && lit t 2 0 && lit t 3 0 && lit t 0 1 && !lit t 1 1 && t.getV VF == 1) = true := by
  decide

/-! ### Keypad, timers and the other commands -/

/-- V-KEY-1. -/
theorem test_skp : answers (step (withKey 11 (withV [(3, 0x0B)] (start 0xE39E)))) (fun t => t.pc == 0x204) = true := by
  decide
/-- V-KEY-5. -/
theorem test_skp_range : answers (step (withV [(3, 0x10)] (start 0xE39E)))
    (fun t => faulted .keyIndexOutOfRange 0x200 0xE39E t && t.pc == 0x200) = true := by decide
/-- V-KEY-3. -/
theorem test_sknp_down : answers (step (withKey 11 (withV [(3, 0x0B)] (start 0xE3A1)))) (fun t => t.pc == 0x202) = true := by
  decide
/-- V-KEY-4. -/
theorem test_sknp : answers (step (withV [(3, 0x0B)] (start 0xE3A1))) (fun t => t.pc == 0x204) = true := by
  decide
/-- V-TMR-1. -/
theorem test_ldVxDT : answers (step { start 0xF007 with DT := 0x2A })
    (fun t => t.getV 0 == 0x2A && t.DT == 0x2A) = true := by decide
/-- V-KEY-8. -/
theorem test_ldVxK_waits : answers (step (start 0xF50A))
    (fun t => t.status == .waitingForKey && t.waitX == 5 && t.pc == 0x200) = true := by decide
/-- V-KEY-7 with one key down (when several are, the choice is free). -/
theorem test_ldVxK : answers (step (withKey 3 (start 0xF50A)))
    (fun t => t.getV 5 == 3 && t.pc == 0x202 && t.status == .running) = true := by decide
/-- V-KEY-10: the step that completes the wait. -/
theorem test_wait_completes :
    answers (step (withKey 9 { start 0xF50A with status := .waitingForKey, waitX := 5 }))
      (fun t => t.getV 5 == 9 && t.pc == 0x202 && t.status == .running && t.key[9]) = true := by decide
/-- V-TMR-2. -/
theorem test_ldDTVx : answers (step (withV [(VF, 3)] (start 0xFF15))) (fun t => t.DT == 3) = true := by decide
/-- V-TMR-3. -/
theorem test_ldSTVx : answers (step (withV [(1, 9)] (start 0xF118))) (fun t => t.ST == 9) = true := by decide
/-- V-TMR-4, the second tick, and V-TMR-5. -/
theorem test_tick : (readTimers (tickTimers { State.reset with DT := 1, ST := 0 }) = (0, 0)) ∧
    (readTimers (tickTimers { State.reset with DT := 0xFF })).1 = 0xFE := by decide
/-- V-TMR-7. -/
theorem test_setKey : (setKey 4 true State.reset).key[4] = true ∧
    setKey 4 false (setKey 4 true State.reset) = State.reset := by decide
/-- V-RST-5, the bytes of the ROM. -/
theorem test_loadProgram : (loadProgram [0x60, 0x12, 0x00] State.reset).mem.read 0x201 = 0x12 := by decide
/-- R172: a load outside its window is refused. -/
theorem test_load_outside_boot :
    (Session.started State.reset).command otherFont (.loadProgram []) = .refused .loadOutsideBoot ∧
    (Session.off 0).command otherFont .step = .refused .commandBeforeInitialize := ⟨rfl, rfl⟩
/-- V-CF-22. -/
theorem test_fetch_past_memory : answers (step { State.reset with pc := 0xFFF })
    (fun t => faulted .programCounterOutOfBounds 0xFFF 0 t && t.pc == 0xFFF) = true := by decide
/-- V-CF-21. -/
theorem test_fetch_last_word :
    answers (step (withMem 0xFFE [0x6A, 0x55] { State.reset with pc := 0xFFE }))
      (fun t => t.getV 0xA == 0x55 && t.pc == 0x1000 && t.status == .running) = true := by decide
/-- V-DEC-1: what a zeroed memory decodes to (V-RST-4). -/
theorem test_unsupported : answers (step State.reset)
    (fun t => faulted .unsupportedOpcode 0x200 0 t && t.pc == 0x200) = true := by decide

/-! ### Witnesses: states and operands that meet the hypotheses of each statement -/

/-- A core that waits for a key, as LD V5,K left it. -/
def waiting : State := { start 0xF50A with status := .waitingForKey, waitX := 5 }

/-- A core that ran a word that is no instruction. -/
def stopped : State := State.reset.takeFault .unsupportedOpcode 0

theorem witness_EncodeInvertsDecode : decodeWord 0xD125 = some (.drw 1 2 5) := by decide
/-- `pc` at the last place a fetch reaches. -/
theorem witness_StepRunsTheDecodedInstruction :
    let s := withMem 0xFFE [0x6A, 0x55] { State.reset with pc := 0xFFE }
    s.status = .running ∧ s.pc.toNat ≤ 0xFFE ∧
      decode [s.mem.read s.pc.toNat, s.mem.read (s.pc.toNat + 1)] = .ok (.ldImm 0xA 0x55, []) := by decide
theorem witness_UnsupportedWordFaults :
    State.reset.status = .running ∧ State.reset.pc.toNat ≤ 0xFFE ∧
      decodeWord (State.reset.mem.read State.reset.pc.toNat ++
        State.reset.mem.read (State.reset.pc.toNat + 1)) = none := by decide
theorem witness_FetchPastMemoryFaults :
    let s := { State.reset with pc := 0xFFF }
    s.status = .running ∧ 0xFFE < s.pc.toNat := by decide
theorem witness_StepIdleAfterTheEnd :
    ({ State.reset with status := .halted }).status = .halted ∧ stopped.status = .faulted := by decide
theorem witness_StepOfAWaitingCore :
    (waiting.status = .waitingForKey ∧ ∀ k : Key, waiting.key[k.val] = false) ∧
    ((withKey 15 waiting).status = .waitingForKey ∧ (withKey 15 waiting).key[(15 : Key).val] = true) := by
  decide
theorem witness_StatusTransitions :
    (∃ t, step State.reset = .next t ∧ (State.reset.status == .running && t.status == .faulted) = true) ∧
    (∃ t, step (start 0x1FFF) = .next t ∧ (t.status == .running) = true) ∧
    (∃ t, step waiting = .next t ∧ (waiting.status == .waitingForKey) = true) ∧
    (∃ t, step { State.reset with status := .halted } = .next t ∧ true = true) ∧
    (∃ t, step stopped = .next t ∧ (stopped.status == .faulted) = true) :=
  ⟨next_of (by decide), next_of (by decide), next_of (by decide), next_of (by decide),
    next_of (by decide)⟩
theorem witness_HaltAndWaitHaveOneCause :
    (∃ t, step (start 0x00FD) = .next t ∧ (t.status == .halted) = true) ∧
    (∃ t, step (start 0xF50A) = .next t ∧ (t.status == .waitingForKey) = true) :=
  ⟨next_of (by decide), next_of (by decide)⟩
theorem witness_InstructionFaultsArePrecise :
    State.reset.status ≠ .faulted ∧
      ∃ t, exec .ret State.reset = .next t ∧ (t.status == .faulted) = true :=
  ⟨by decide, next_of (by decide)⟩
theorem witness_PlacedWordRunsNext :
    0xD125 < 65536 ∧ decodeTableWord 16 0xD125 = some (.drw 1 2 5) ∧
    0xFFFF < 65537 ∧ decodeTableWord 16 0xFF65 = some (.ldVxMem 0xF) := by decide
theorem witness_StepLeavesKeypadAlone :
    ∃ t, step (withKey 9 waiting) = .next t ∧ (t.status == .running) = true := next_of (by decide)
theorem witness_TimersSetOnlyByTheirInstructions :
    (∃ t, step (withV [(VF, 3)] (start 0xFF15)) = .next t ∧ (t.DT != (start 0xFF15).DT) = true) ∧
    (∃ t, step (withV [(1, 9)] (start 0xF118)) = .next t ∧ (t.ST != (start 0xF118).ST) = true) :=
  ⟨next_of (by decide), next_of (by decide)⟩
theorem witness_StackWrittenOnlyByCallAndRet :
    (∃ t, step { start 0x2300 with sp := 15 } = .next t ∧
      (t.stack != State.reset.stack && t.sp == 16) = true) ∧
    (∃ t, step { start 0x00EE with sp := 1 } = .next t ∧ (t.sp == 0) = true) :=
  ⟨next_of (by decide), next_of (by decide)⟩
/-- The last byte a BCD store reaches, and the last a dump reaches. -/
theorem witness_MemoryWrittenOnlyByStores :
    (∃ t, step (withV [(0, 0x7B)] { start 0xF033 with I := 0xFFD }) = .next t ∧
      (t.mem.read 0xFFF != (start 0xF033).mem.read 0xFFF) = true) ∧
    (∃ t, step (withV [(VF, 1)] { start 0xFF55 with I := 0xFF0 }) = .next t ∧
      (t.mem.read 0xFFF != (start 0xFF55).mem.read 0xFFF) = true) :=
  ⟨next_of (by decide), next_of (by decide)⟩
/-- The last byte of the font, and a store to the byte after it. -/
theorem witness_FontNeverOverwritten :
    0x4F < 0x50 ∧ ∃ t, step (withV [(0, 7)] { start 0xF055 with I := 0x50 }) = .next t ∧
      (t.mem.read 0x50 == 7) = true := ⟨by decide, next_of (by decide)⟩
theorem witness_IndexAndScreenWriters :
    (∃ t, step (start 0xA123) = .next t ∧ (t.I != (start 0xA123).I) = true) ∧
    (∃ t, step (withCell 0 0 (start 0x00E0)) = .next t ∧ t.fb ≠ (withCell 0 0 (start 0x00E0)).fb) := by
  refine ⟨next_of (by decide), ?_⟩
  obtain ⟨t, ht, hl⟩ := next_of (o := step (withCell 0 0 (start 0x00E0))) (p := fun t => !lit t 0 0)
    (by decide)
  refine ⟨t, ht, fun e => ?_⟩
  have : lit t 0 0 = true := by rw [lit, e]; decide
  simp [this] at hl
theorem witness_OthersWriteVFOnlyAsDestination :
    ∃ t, exec (.ldImm VF 0x42) State.reset = .next t ∧ (t.getV VF != State.reset.getV VF) = true :=
  next_of (by decide)
theorem witness_NoStepReadsTheSoundTimer :
    AgreeButST (start 0xF118) { start 0xF118 with ST := 0xFF } := rfl

/-- The invariant holds of a waiting core … -/
theorem witness_StepKeepsInv_waiting : CoreInv Config.defaultFont waiting where
  memory := by decide
  font := by decide
  pc := by decide
  stack := by decide
  waiting := by decide
  noRecord := by decide
  record := by decide
/-- … and of a running one about to store, whose step is a next state. -/
theorem witness_StepKeepsInv_running :
    CoreInv Config.defaultFont { start 0xF155 with I := 0x202 } ∧
      ∃ t, step { start 0xF155 with I := 0x202 } = .next t ∧ (t.pc == 0x202) = true :=
  ⟨{ memory := by decide, font := by decide, pc := by decide, stack := by decide, waiting := by decide,
     noRecord := by decide, record := by decide }, next_of (by decide)⟩
/-- … and of a faulted core with another font. -/
theorem witness_StepKeepsInv_another_font :
    CoreInv otherFont ((State.resetWith otherFont).takeFault .unsupportedOpcode 0) where
  memory := by decide
  font := by decide
  pc := by decide
  stack := by decide
  waiting := by decide
  noRecord := by decide
  record := by decide
/-- One command from each phase; the load is at the length that still fits. -/
theorem witness_CommandsKeepInv :
    ((Session.off 3).Inv otherFont ∧
      ∃ τ, (Session.off 3).command otherFont .initialise = .next τ) ∧
    (((Session.booted { start 0xF155 with I := 0x202 }).Inv Config.defaultFont ∧
      ∃ τ, (Session.booted { start 0xF155 with I := 0x202 }).command Config.defaultFont
        (.loadProgram (List.replicate 0xE00 0)) = .next τ)) ∧
    ((Session.started waiting).Inv Config.defaultFont ∧
      ∃ τ, (Session.started waiting).command Config.defaultFont (.setKey 9 true) = .next τ) :=
  ⟨⟨trivial, _, rfl⟩, ⟨⟨witness_StepKeepsInv_running.1, rfl⟩, _, rfl⟩,
    ⟨witness_StepKeepsInv_waiting, _, rfl⟩⟩
theorem startsWithInitialise_cons (cs : List Command) : StartsWithInitialise (.initialise :: cs) := by
  intro c rest h
  exact (List.cons.inj h).1.symm
/-- In order: a tick, a key event, a load, a step and a second boot. -/
theorem witness_HostRunsKeepInv_in_order :
    StartsWithInitialise [.initialise, .tickTimers, .setKey 9 true, .loadProgram [0x12, 0x00], .step, .initialise] ∧
    LoadsInTheirWindow [.initialise, .tickTimers, .setKey 9 true, .loadProgram [0x12, 0x00], .step, .initialise] := by
  refine ⟨startsWithInitialise_cons _, fun before bytes after h => ?_⟩
  have hb : before = [.initialise, .tickTimers, .setKey 9 true] := by
    rcases before with _ | ⟨c1, _ | ⟨c2, _ | ⟨c3, _ | ⟨c4, _ | ⟨c5, _ | ⟨c6, r⟩⟩⟩⟩⟩⟩ <;> simp_all
  exact ⟨[], [.tickTimers, .setKey 9 true], hb, by simp⟩
/-- Out of order: a step before `initialize`; a load after a step. -/
theorem witness_HostRunsKeepInv_out_of_order :
    ¬ StartsWithInitialise [.step] ∧ StartsWithInitialise [.initialise, .step, .loadProgram []] ∧
    ¬ LoadsInTheirWindow [.initialise, .step, .loadProgram []] := by
  refine ⟨fun h => by simpa using h .step [] rfl, startsWithInitialise_cons _, fun h => ?_⟩
  obtain ⟨a, b, hab, hb⟩ := h [.initialise, .step] [] [] rfl
  have hm : Command.step ∈ b := by
    rcases a with _ | ⟨c, _ | ⟨c', r⟩⟩ <;> simp_all [eq_comm]
  exact (hb _ hm).1 rfl
theorem witness_CommandsKeepInv_refused : Command.step ≠ .initialise ∧
    (∀ bytes, Command.step ≠ .loadProgram bytes) := ⟨by decide, fun _ => by simp⟩
/-- Both ends of the stack's depth, and the empty stack. -/
theorem witness_ReturnPopsTheStack :
    ({ State.reset with sp := 1 }).sp.val = (0 : Fin 16).val + 1 ∧
    ({ State.reset with sp := 16 }).sp.val = (15 : Fin 16).val + 1 ∧ State.reset.sp.val = 0 := by decide
theorem witness_CallPushesReturnAddress :
    State.reset.sp.val = (0 : Fin 16).val ∧ ({ State.reset with sp := 15 }).sp.val = (15 : Fin 16).val ∧
    (∃ k : Fin 16, k ≠ 15) ∧ ({ State.reset with sp := 16 }).sp.val = 16 := by decide
theorem witness_SkipOnImmediate :
    (withV [(3, 0xFF)] State.reset).getV 3 = 0xFF ∧ State.reset.getV 3 ≠ 0xFF := by decide
theorem witness_SkipOnRegister :
    (withV [(1, 7), (2, 7)] State.reset).getV 1 = (withV [(1, 7), (2, 7)] State.reset).getV 2 ∧
    (withV [(1, 7), (2, 8)] State.reset).getV 1 ≠ (withV [(1, 7), (2, 8)] State.reset).getV 2 := by decide
/-- The clause of RET, JP, skips and JP V0 on the next fetch. -/
theorem witness_FaultsAtTheFetchPastMemory :
    ∃ t, exec (.jp 0xFFF) State.reset = .next t ∧
      (t.status == .running && decide (0xFFE < t.pc.toNat)) = true := next_of (by decide)
/-- Sixteen calls from the empty stack, none with the stack full, and a return count inside the range. -/
theorem witness_CallsAndReturnsAreLifo :
    State.reset.sp.val + (List.replicate 16 (0x300 : Addr12)).length ≤ 16 ∧
    ({ State.reset with sp := 16 }).sp.val + ([] : List Addr12).length ≤ 16 ∧
    16 ≤ (List.replicate 16 (0x300 : Addr12)).length ∧ 0 < 16 ∧ State.reset.sp.val = 0 := by decide
theorem witness_flag_writers_with_another_destination : (14 : Reg) ≠ VF ∧ (0 : Reg) ≠ VF := by decide
theorem witness_FontAddressFindsTheGlyph : CoreInv Config.defaultFont waiting ∧ 4 < 5 :=
  ⟨witness_StepKeepsInv_waiting, by decide⟩
/-- The first and the last base, the first past it, and the last in the font. -/
theorem witness_BcdStoresThreeDigits :
    (let s := { State.reset with I := 0x050 }; s.I.toNat + 2 ≤ 0xFFF ∧ 0x050 ≤ s.I.toNat) ∧
    (let s := { State.reset with I := 0xFFD }; s.I.toNat + 2 ≤ 0xFFF ∧ 0x050 ≤ s.I.toNat) ∧
    (let s := { State.reset with I := 0xFFE }; 0xFFF < s.I.toNat + 2) ∧
    (let s := { State.reset with I := 0x04F }; s.I.toNat < 0x050) := by decide
theorem witness_DumpStoresV0ToVx :
    (let s := { State.reset with I := 0xFF0 }; s.I.toNat + (15 : Reg).val ≤ 0xFFF ∧ 0x050 ≤ s.I.toNat) ∧
    (let s := { State.reset with I := 0xFF1 }; 0xFFF < s.I.toNat + (15 : Reg).val) ∧
    (let s := { State.reset with I := 0x04F }; s.I.toNat < 0x050) ∧ (15 : Reg) ≤ 15 := by decide
theorem witness_LoadFillsV0ToVx :
    (let s := { State.reset with I := 0xFFF }; s.I.toNat + (0 : Reg).val ≤ 0xFFF) ∧
    (let s := { State.reset with I := 0xFFF }; 0xFFF < s.I.toNat + (1 : Reg).val) ∧
    (0 : Reg) ≤ 0 ∧ (0 : Reg) < 1 := by decide
/-- No row at any `I`, the last sprite that fits, and the first that does not. -/
theorem witness_DrawXorsAndDetectsCollision :
    (let s := { State.reset with I := 0xFFFF }
     (0 : Nibble).toNat = 0 ∨ s.I.toNat + ((0 : Nibble).toNat - 1) ≤ 0xFFF) ∧
    (let s := { State.reset with I := 0xFF1 }
     (15 : Nibble).toNat = 0 ∨ s.I.toNat + ((15 : Nibble).toNat - 1) ≤ 0xFFF) ∧
    (let s := { State.reset with I := 0xFF2 }
     (15 : Nibble).toNat ≠ 0 ∧ 0xFFF < s.I.toNat + ((15 : Nibble).toNat - 1)) := by decide
theorem witness_DrawingTwiceRestores :
    ((5 : Nibble).toNat = 0 ∨ State.reset.I.toNat + ((5 : Nibble).toNat - 1) ≤ 0xFFF) ∧
    (∀ (Y : Fin 32) (X : Fin 64), spritePixel State.reset 0 0 5 X.val Y.val = true →
      State.reset.fb[Y.val][X.val] = false) ∧ spritePixel State.reset 0 0 5 3 4 = true := by
  refine ⟨by decide, fun Y X _ => ?_, by decide⟩
  simp [State.reset]
set_option maxRecDepth 4000 in
/-- The two draws of glyph 0, each a next state. -/
theorem witness_SecondDrawAlwaysCollides :
    ∃ t, exec (.drw 0 0 5) State.reset = .next t ∧
      answers (exec (.drw 0 0 5) { t with V := State.reset.V }) (fun u => u.getV VF == 1) = true :=
  next_of (by decide)
theorem witness_SkipOnKey :
    ((withV [(3, 0)] State.reset).getV 3).toNat = (0 : Key).val ∧
    ((withV [(3, 15)] State.reset).getV 3).toNat = (15 : Key).val ∧
    15 < ((withV [(3, 16)] State.reset).getV 3).toNat := by decide
theorem witness_KeyWaitCompletesOrWaits :
    (withKey 15 State.reset).key[(15 : Key).val] = true ∧
    (∀ l : Key, (withKey 15 State.reset).key[l.val] = true → l = 15) ∧
    (∀ k : Key, State.reset.key[k.val] = false) := by decide
theorem witness_SetKeySetsOneLatch : (14 : Key) ≠ 15 := by decide
theorem witness_LoadProgramCopiesOrFaults :
    (List.replicate 0xE00 (0 : Byte)).length ≤ 0xE00 ∧ 0xE00 < (List.replicate 0xE01 (0 : Byte)).length ∧
    0xDFF < (List.replicate 0xE00 (0 : Byte)).length := by
  rw [List.length_replicate, List.length_replicate]; decide

end Sys2Proof.Tests
end

section
/-! SUPPORT. Every command the host may give answers and keeps the invariant (spec/60_exceptions.md R158,
R159): what an instruction can do to `pc`, the stack and memory, the invariant over one step, and the
invariant over the other commands. -/

namespace Sys2Proof.Machine

variable {font : Font} {s t : State}

/-! ### Every instruction and every step answers a next state -/

theorem exec_next (i : Instr) (s : State) : ∃ t, exec i s = .next t := by
  cases i
  case ret => simp only [exec, execRet]; split <;> exact ⟨_, rfl⟩
  case call => simp only [exec, execCall]; split <;> exact ⟨_, rfl⟩
  case drw => simp only [exec, execDrw]; split <;> exact ⟨_, rfl⟩
  case skp => simp only [exec, execSkp]; split <;> exact ⟨_, rfl⟩
  case sknp => simp only [exec, execSknp]; split <;> exact ⟨_, rfl⟩
  case ldVxK => simp only [exec, execLdVxK]; split <;> exact ⟨_, rfl⟩
  case ldB => simp only [exec, execLdB, storeAtI]; split <;> exact ⟨_, rfl⟩
  case ldMemVx => simp only [exec, execLdMemVx, storeAtI]; split <;> exact ⟨_, rfl⟩
  case ldVxMem => simp only [exec, execLdVxMem]; split <;> exact ⟨_, rfl⟩
  all_goals exact ⟨_, rfl⟩

theorem step_next (s : State) : ∃ t, step s = .next t := by
  unfold step
  split
  · exact ⟨_, rfl⟩
  · exact ⟨_, rfl⟩
  · exact ⟨_, rfl⟩
  · split
    · exact ⟨_, rfl⟩
    · split
      · exact ⟨_, rfl⟩
      · exact exec_next _ s

/-! ### The program counter and the stack over all instructions -/

/-- All an instruction can do to `pc`: keep it (a fault, or the key wait), advance, skip, or transfer
control (R75 to R82). -/
inductive PcCase (i : Instr) (s t : State) : Prop
  | kept (h : t.pc = s.pc)
  | advanced (h : t.pc = s.pc + 2)
  | skipped (h : t.pc = s.pc + 2 + 2)
  | jumped (nnn : Addr12) (hi : i = .jp nnn ∨ i = .call nnn) (h : t.pc = target nnn)
  | offset (nnn : Addr12) (hi : i = .jpV0 nnn) (h : t.pc = target nnn + widen (s.getV 0))
  | returned (hi : i = .ret) (hsp : s.sp.val ≠ 0) (h : t.pc = s.stack[s.sp.val - 1])

theorem PcCase.skipIf (i : Instr) (s : State) (taken : Bool) : PcCase i s (s.skipIf taken) := by
  cases taken
  · exact .advanced rfl
  · exact .skipped rfl

theorem exec_pc {i : Instr} (h : exec i s = .next t) : PcCase i s t := by
  cases i <;> simp only [exec] at h
  case ret =>
    rcases execRet_cases h with ⟨_, rfl⟩ | ⟨hsp, rfl⟩
    · exact .kept rfl
    · exact .returned rfl hsp rfl
  case jp nnn => exact .jumped nnn (.inl rfl) (next_inj h ▸ rfl)
  case call nnn =>
    rcases execCall_cases h with ⟨_, rfl⟩ | ⟨_, rfl⟩
    · exact .kept rfl
    · exact .jumped nnn (.inr rfl) rfl
  case jpV0 nnn => exact .offset nnn rfl (next_inj h ▸ rfl)
  case seImm => exact next_inj h ▸ .skipIf _ s _
  case sneImm => exact next_inj h ▸ .skipIf _ s _
  case seReg => exact next_inj h ▸ .skipIf _ s _
  case sneReg => exact next_inj h ▸ .skipIf _ s _
  case skp =>
    rcases execSkp_cases h with ⟨_, rfl⟩ | ⟨_, _, rfl⟩
    · exact .kept rfl
    · exact .skipIf _ s _
  case sknp =>
    rcases execSknp_cases h with ⟨_, rfl⟩ | ⟨_, _, rfl⟩
    · exact .kept rfl
    · exact .skipIf _ s _
  case drw =>
    rcases execDrw_cases h with ⟨_, _, rfl⟩ | ⟨_, rfl⟩
    · exact .kept rfl
    · exact .advanced rfl
  case ldVxK =>
    rcases execLdVxK_cases h with ⟨_, _, rfl⟩ | ⟨_, rfl⟩
    · exact .advanced rfl
    · exact .kept rfl
  case ldB =>
    rcases storeAtI_cases h with ⟨_, _, rfl⟩ | ⟨_, rfl⟩
    · exact .kept rfl
    · exact .advanced rfl
  case ldMemVx =>
    rcases storeAtI_cases h with ⟨_, _, rfl⟩ | ⟨_, rfl⟩
    · exact .kept rfl
    · exact .advanced rfl
  case ldVxMem =>
    rcases execLdVxMem_cases h with ⟨_, _, rfl⟩ | ⟨_, rfl⟩
    · exact .kept rfl
    · exact .advanced rfl
  all_goals exact .advanced (next_inj h ▸ rfl)

/-- All an instruction can do to the stack's entries: nothing, or the push of a CALL (R77). -/
theorem exec_stack {i : Instr} (h : exec i s = .next t) :
    t.stack = s.stack ∨
    ∃ nnn, i = .call nnn ∧ ∃ _ : s.sp.val < 16, t.stack = s.stack.set s.sp.val (s.pc + 2) := by
  cases i <;> simp only [exec] at h
  case call nnn =>
    rcases execCall_cases h with ⟨_, rfl⟩ | ⟨hsp, rfl⟩
    · exact .inl rfl
    · exact .inr ⟨nnn, rfl, hsp, rfl⟩
  case ret => rcases execRet_cases h with ⟨_, rfl⟩ | ⟨_, rfl⟩ <;> exact .inl rfl
  case drw => rcases execDrw_cases h with ⟨_, _, rfl⟩ | ⟨_, rfl⟩ <;> exact .inl rfl
  case skp => rcases execSkp_cases h with ⟨_, rfl⟩ | ⟨_, _, rfl⟩ <;> exact .inl rfl
  case sknp => rcases execSknp_cases h with ⟨_, rfl⟩ | ⟨_, _, rfl⟩ <;> exact .inl rfl
  case ldVxK => rcases execLdVxK_cases h with ⟨_, _, rfl⟩ | ⟨_, rfl⟩ <;> exact .inl rfl
  case ldB => rcases storeAtI_cases h with ⟨_, _, rfl⟩ | ⟨_, rfl⟩ <;> exact .inl rfl
  case ldMemVx => rcases storeAtI_cases h with ⟨_, _, rfl⟩ | ⟨_, rfl⟩ <;> exact .inl rfl
  case ldVxMem => rcases execLdVxMem_cases h with ⟨_, _, rfl⟩ | ⟨_, rfl⟩ <;> exact .inl rfl
  all_goals exact .inl (next_inj h ▸ rfl)

/-- The bound of `pc` (R15): the highest is that of JP V0, 0xFFF + 0xFF. -/
theorem exec_pc_le {i : Instr} (h : exec i s = .next t) (hpc : s.pc.toNat ≤ 0xFFE)
    (hstack : ∀ j : Fin 16, (s.stack[j.val]).toNat ≤ 0x1000) : t.pc.toNat ≤ 0x10FE := by
  rcases exec_pc h with h | h | h | ⟨nnn, _, h⟩ | ⟨nnn, _, h⟩ | ⟨_, hsp, h⟩ <;> rw [h]
  case kept => omega
  case advanced => rw [BitVec.toNat_add]; simp; omega
  case skipped => rw [BitVec.toNat_add, BitVec.toNat_add]; simp; omega
  case jumped => rw [toNat_target]; omega
  case offset => rw [BitVec.toNat_add, toNat_target, toNat_widen]; omega
  case returned => exact (hstack ⟨s.sp.val - 1, by omega⟩).trans (by decide)

/-- The bound of the stack's entries (R16): CALL pushes the address after a word inside memory. -/
theorem exec_stack_le {i : Instr} (h : exec i s = .next t) (hpc : s.pc.toNat ≤ 0xFFE)
    (hstack : ∀ j : Fin 16, (s.stack[j.val]).toNat ≤ 0x1000) (j : Fin 16) :
    (t.stack[j.val]).toNat ≤ 0x1000 := by
  rcases exec_stack h with h | ⟨_, _, _, h⟩ <;> simp only [h]
  · exact hstack j
  · rw [Vector.getElem_set]
    split
    · rw [BitVec.toNat_add]; simp; omega
    · exact hstack j

/-! ### Memory and the font -/

/-- All an instruction can do to memory, as the invariant sees it: nothing, or a block inside memory and
above the font (R37, D11). -/
theorem exec_mem_block {i : Instr} (h : exec i s = .next t) :
    t.mem = s.mem ∨ ∃ a bytes, Config.fontBase + Config.fontSize ≤ a ∧
      a + bytes.length ≤ Config.memSize ∧ t.mem = s.mem.writeBytes a bytes := by
  rcases exec_mem h with h | ⟨x, _, hf, h⟩ | ⟨x, _, hf, h⟩
  · exact .inl h
  · have ⟨hhi, hlo⟩ := State.writeFault_eq_none.1 hf
    refine .inr ⟨_, _, hlo, ?_, h⟩
    rw [length_bcdDigits, Config.memSize]; omega
  · have ⟨hhi, hlo⟩ := State.writeFault_eq_none.1 hf
    refine .inr ⟨_, _, hlo, ?_, h⟩
    rw [State.length_regsUpTo, Config.memSize]; omega

/-- A block stored above the font leaves the font alone (R11). -/
theorem Memory.read_font_writeBytes (m : Memory) {a a' : Nat} (bytes : List Byte)
    (ha : Config.fontBase + Config.fontSize ≤ a) (ha' : a' < Config.fontBase + Config.fontSize) :
    (m.writeBytes a bytes).read a' = m.read a' := by
  rw [Memory.read_writeBytes, if_neg (by omega)]

/-! ### The invariant over one step -/

/-- A block stored inside memory and above the font keeps the invariant of a Running core. -/
theorem CoreInv.writeBytes (h : CoreInv font s) (hs : s.status = .running) {a : Nat}
    {bytes : List Byte} (ha : Config.fontBase + Config.fontSize ≤ a)
    (hb : a + bytes.length ≤ Config.memSize) :
    CoreInv font { s with mem := s.mem.writeBytes a bytes } :=
  { h with
    memory := Memory.wf_writeBytes h.memory bytes hb
    font := fun j =>
      (Memory.read_font_writeBytes s.mem bytes ha (Nat.add_lt_add_left j.isLt _)).trans (h.font j)
    waiting := fun hw => by simp [hs] at hw }

theorem CoreInv.takeFault (h : CoreInv font s) (k : Fault) (op : Word) :
    CoreInv font (s.takeFault k op) :=
  { h with
    waiting := fun hw => by simp at hw
    noRecord := fun hr => absurd rfl hr
    record := fun _ => by simp }

/-- The step of a core that waits for a key. -/
theorem stepWaiting_keeps_coreInv (h : CoreInv font s) (hs : s.status = .waitingForKey) :
    CoreInv font (stepWaiting s) := by
  rcases stepWaiting_cases s with ⟨k, _, hk⟩ | ⟨_, hk⟩ <;> rw [hk]
  · have hpc : s.pc.toNat ≤ 0xFFE := (h.waiting hs).1
    exact { h with
      pc := by simp [BitVec.toNat_add]; omega
      waiting := fun hw => by simp at hw
      noRecord := fun _ => h.noRecord (by simp [hs])
      record := fun hr => by simp at hr }
  · exact h

/-- The run status and the fault record after an instruction that ran at `pc`, as the invariant has them. -/
theorem exec_keeps_status_inv {i : Instr} (h : CoreInv font s) (hs : s.status = .running)
    (hpc : s.pc.toNat ≤ 0xFFE) (hw : decodeWord (s.mem.readWord s.pc.toNat) = some i)
    (ht : exec i s = .next t) :
    (t.status = .waitingForKey →
      t.pc.toNat ≤ 0xFFE ∧ decodeWord (t.mem.readWord t.pc.toNat) = some (.ldVxK t.waitX)) ∧
    (t.status ≠ .faulted → t.faultKind = none ∧ t.faultAddr = 0 ∧ t.faultOpcode = 0) ∧
    (t.status = .faulted → t.faultKind ≠ none) := by
  have hrec := h.noRecord (by simp [hs])
  rcases exec_status ht with ⟨h1, h2, h3, h4⟩ | ⟨_, rfl⟩ | ⟨k, rfl⟩ | ⟨x, rfl, _, rfl⟩
  · simp [h1, h2, h3, h4, hs, hrec]
  · simp [hrec]
  · simp
  · simp [hrec, hpc, hw]

theorem exec_keeps_coreInv {i : Instr} (h : CoreInv font s) (hs : s.status = .running)
    (hpc : s.pc.toNat ≤ 0xFFE) (hw : decodeWord (s.mem.readWord s.pc.toNat) = some i)
    (ht : exec i s = .next t) : CoreInv font t := by
  obtain ⟨hwait, hno, hrec⟩ := exec_keeps_status_inv h hs hpc hw ht
  have hmem : t.mem.wf ∧ ∀ j : Fin 80, t.mem.read (Config.fontBase + j.val) = font[j.val] := by
    rcases exec_mem_block ht with hm | ⟨a, bytes, ha, hb, hm⟩ <;> rw [hm]
    · exact ⟨h.memory, h.font⟩
    · exact ⟨(h.writeBytes hs ha hb).memory, (h.writeBytes hs ha hb).font⟩
  exact ⟨hmem.1, hmem.2, exec_pc_le ht hpc h.stack, exec_stack_le ht hpc h.stack, hwait, hno, hrec⟩

theorem step_keeps_coreInv (h : CoreInv font s) (ht : step s = .next t) : CoreInv font t := by
  cases step_cases ht with
  | ended _ ht => exact ht ▸ h
  | waiting hs ht => exact ht ▸ stepWaiting_keeps_coreInv h hs
  | badPc _ _ ht => exact ht ▸ h.takeFault _ _
  | badWord _ _ _ ht => exact ht ▸ h.takeFault _ _
  | instr hs hpc i hw ht => exact exec_keeps_coreInv h hs hpc hw ht

/-! ### The invariant over the other commands -/

theorem coreInv_resetWith (font : Font) : CoreInv font (State.resetWith font) where
  memory := Memory.wf_resetWith font
  font j := by simp [Memory.read_resetWith, Config.fontBase]
  pc := by rw [State.resetWith_pc]; decide
  stack j := by simp [State.reset]
  waiting h := by simp [State.reset] at h
  noRecord _ := ⟨rfl, rfl, rfl⟩
  record h := by simp [State.reset] at h

/-- The model's own counter of random draws stands outside the invariant (log entry 2). -/
theorem CoreInv.withDraws (h : CoreInv font s) (d : Nat) : CoreInv font { s with draws := d } :=
  { h with }

theorem initialise_coreInv (font : Font) (s : State) : CoreInv font (initialise font s) :=
  (coreInv_resetWith font).withDraws s.draws

theorem tickTimers_keeps_coreInv (h : CoreInv font s) : CoreInv font (tickTimers s) :=
  { h with }

theorem setKey_keeps_coreInv (h : CoreInv font s) (k : Key) (p : Bool) :
    CoreInv font (setKey k p s) :=
  { h with }

/-- The load is from a Running core, since a waiting core's LD Vx,K may stand where the ROM goes. -/
theorem loadProgram_keeps_coreInv (h : CoreInv font s) (hs : s.status = .running)
    (bytes : List Byte) : CoreInv font (loadProgram bytes s) := by
  unfold loadProgram
  split
  next hfits =>
    have hlen : bytes.length ≤ Config.maxRom := of_decide_eq_true hfits
    exact h.writeBytes hs (by decide) (Nat.add_le_add_left hlen Config.progBase)
  next => exact h.takeFault _ _

/-! ### The commands under the boot order -/

/-- The command `step` is accepted in both phases that follow `initialise`, and starts the run. -/
theorem afterStep_accepts (font : Font) (s : State) :
    ∃ τ, afterStep (step s) = .next τ ∧ (CoreInv font s → τ.Inv font) := by
  obtain ⟨t, ht⟩ := step_next s
  exact ⟨.started t, by rw [ht]; rfl, fun h => step_keeps_coreInv h ht⟩

/-- After `initialise`, before the load or the first step: every command (R171). -/
theorem Session.booted_accepts (font : Font) (s : State) (c : Command) :
    ∃ τ, (Session.booted s).command font c = .next τ ∧
      ((Session.booted s).Inv font → τ.Inv font) := by
  cases c with
  | initialise => exact ⟨_, rfl, fun _ => ⟨initialise_coreInv font s, rfl⟩⟩
  | loadProgram bytes => exact ⟨_, rfl, fun ⟨h, hs⟩ => loadProgram_keeps_coreInv h hs bytes⟩
  | step =>
    obtain ⟨τ, hτ, hinv⟩ := afterStep_accepts font s
    exact ⟨τ, hτ, fun ⟨h, _⟩ => hinv h⟩
  | tickTimers => exact ⟨_, rfl, fun ⟨h, hs⟩ => ⟨tickTimers_keeps_coreInv h, hs⟩⟩
  | setKey k p => exact ⟨_, rfl, fun ⟨h, hs⟩ => ⟨setKey_keeps_coreInv h k p, hs⟩⟩

/-- After the load or the first step: every command but `loadProgram` (R171, D24). -/
theorem Session.started_accepts (font : Font) (s : State) (c : Command)
    (hc : ∀ bytes, c ≠ .loadProgram bytes) :
    ∃ τ, (Session.started s).command font c = .next τ ∧
      ((Session.started s).Inv font → τ.Inv font) := by
  cases c with
  | initialise => exact ⟨_, rfl, fun _ => ⟨initialise_coreInv font s, rfl⟩⟩
  | loadProgram bytes => exact absurd rfl (hc bytes)
  | step => exact afterStep_accepts font s
  | tickTimers => exact ⟨_, rfl, fun h => tickTimers_keeps_coreInv h⟩
  | setKey k p => exact ⟨_, rfl, fun h => setKey_keeps_coreInv h k p⟩

/-- Before `initialise` no other command has a meaning (R172, I11). -/
theorem Session.off_refuses (font : Font) (d : Nat) {c : Command} (hc : c ≠ .initialise) :
    (Session.off d).command font c = .refused .commandBeforeInitialize := by
  cases c with
  | initialise => exact absurd rfl hc
  | _ => rfl

/-- Settles O26: acceptance phase by phase, the invariant carried by the lemma of each command. -/
theorem commandsKeepInv : Obligations.CommandsKeepInv := by
  intro font
  refine ⟨fun d => ⟨_, rfl, (coreInv_resetWith font).withDraws d, rfl⟩, fun d c hc => ?_,
    Session.booted_accepts font, Session.started_accepts font, fun _ _ => rfl⟩
  exact Session.off_refuses font d hc

end Sys2Proof.Machine
end

section
/-! SUPPORT. The state over one step (spec/10_state.md): the parts and the registers each instruction may
write, said once per instruction, and from them who writes what. -/

namespace Sys2Proof

/-- The parts of the state an instruction may write, a fault of its own included; of the two stores and
the block load the bytes and registers are those of `exec_mem` and `Instr.dests`. -/
def Instr.footprint : Instr → List Machine.Part
  | .cls => [.pc, .fb]
  | .ret => [.pc, .sp, .status, .fault]
  | .halt => [.pc, .status]
  | .call _ => [.pc, .stack, .sp, .status, .fault]
  | .jp _ | .jpV0 _ | .seImm _ _ | .sneImm _ _ | .seReg _ _ | .sneReg _ _ => [.pc]
  | .ldImm _ _ | .addImm _ _ | .ldReg _ _ | .orReg _ _ | .andReg _ _ | .xorReg _ _
  | .addReg _ _ | .subReg _ _ | .shr _ _ | .subn _ _ | .shl _ _ | .ldVxDT _ => [.pc, .V]
  | .rnd _ _ => [.pc, .V, .draws]
  | .ldI _ | .ldF _ => [.pc, .I]
  | .addI _ => [.pc, .I, .V]
  | .drw _ _ _ => [.pc, .fb, .V, .status, .fault]
  | .skp _ | .sknp _ => [.pc, .status, .fault]
  | .ldVxK _ => [.pc, .V, .status, .waitX]
  | .ldDTVx _ => [.pc, .DT]
  | .ldSTVx _ => [.pc, .ST]
  | .ldB _ | .ldMemVx _ => [.pc, .mem, .status, .fault]
  | .ldVxMem _ => [.pc, .V, .status, .fault]

/-- The V registers an instruction may write: its destination, VF of a flag writer (R13), and the block of
LD Vx,[I]. -/
def Instr.dests : Instr → List Reg
  | .ldImm x _ | .addImm x _ | .ldReg x _ | .orReg x _ | .andReg x _ | .xorReg x _ | .rnd x _
  | .ldVxDT x | .ldVxK x => [x]
  | .addReg x _ | .subReg x _ | .shr x _ | .subn x _ | .shl x _ => [x, VF]
  | .addI _ | .drw _ _ _ => [VF]
  | .ldVxMem x => (List.finRange 16).filter (· ≤ x)
  | _ => []

namespace Machine

variable {s t : State}

/-! ### The frame of an instruction -/

theorem keepsAllBut_takeFault {l : List Part} (hl : [.status, .fault] ⊆ l) (k : Fault) (op : Word)
    (s : State) : KeepsAllBut l s (s.takeFault k op) := by
  obtain ⟨_, _, _, _, hframe⟩ := faultTaken_takeFault k op s
  exact fun p hp => hframe p fun hmem => hp (hl hmem)

/-- An instruction writes no part outside its footprint. -/
theorem exec_frame {i : Instr} (h : exec i s = .next t) : KeepsAllBut i.footprint s t := by
  cases i <;> simp only [exec] at h
  case ret =>
    rcases execRet_cases h with ⟨_, rfl⟩ | ⟨_, rfl⟩
    · exact keepsAllBut_takeFault (by simp [Instr.footprint]) _ _ s
    · intro p hp; cases p <;> simp [Instr.footprint, Keeps, State.getV] at hp ⊢
  case call =>
    rcases execCall_cases h with ⟨_, rfl⟩ | ⟨_, rfl⟩
    · exact keepsAllBut_takeFault (by simp [Instr.footprint]) _ _ s
    · intro p hp; cases p <;> simp [Instr.footprint, Keeps, State.getV] at hp ⊢
  case drw =>
    rcases execDrw_cases h with ⟨_, _, rfl⟩ | ⟨_, rfl⟩
    · exact keepsAllBut_takeFault (by simp [Instr.footprint]) _ _ s
    · intro p hp; cases p <;> simp [Instr.footprint, Keeps] at hp ⊢
  case skp =>
    rcases execSkp_cases h with ⟨_, rfl⟩ | ⟨_, _, rfl⟩
    · exact keepsAllBut_takeFault (by simp [Instr.footprint]) _ _ s
    · intro p hp; cases p <;> simp [Instr.footprint, Keeps] at hp ⊢
  case sknp =>
    rcases execSknp_cases h with ⟨_, rfl⟩ | ⟨_, _, rfl⟩
    · exact keepsAllBut_takeFault (by simp [Instr.footprint]) _ _ s
    · intro p hp; cases p <;> simp [Instr.footprint, Keeps] at hp ⊢
  case ldB | ldMemVx =>
    rcases storeAtI_cases h with ⟨_, _, rfl⟩ | ⟨_, rfl⟩
    · exact keepsAllBut_takeFault (by simp [Instr.footprint]) _ _ s
    · intro p hp; cases p <;> simp [Instr.footprint, Keeps, State.getV] at hp ⊢
  case ldVxMem =>
    rcases execLdVxMem_cases h with ⟨_, _, rfl⟩ | ⟨_, rfl⟩
    · exact keepsAllBut_takeFault (by simp [Instr.footprint]) _ _ s
    · intro p hp; cases p <;> simp [Instr.footprint, Keeps] at hp ⊢
  case ldVxK =>
    rcases execLdVxK_cases h with ⟨_, _, rfl⟩ | ⟨_, rfl⟩
    · intro p hp; cases p <;> simp [Instr.footprint, Keeps] at hp ⊢
    · intro p hp; cases p <;> simp [Instr.footprint, Keeps] at hp ⊢
  all_goals
    rw [← next_inj h]
    intro p hp
    cases p <;> simp [Instr.footprint, Keeps, State.getV] at hp ⊢

/-- With a flag and a result both written, the other registers are as they were. -/
theorem getV_of_writeWithFlag {x r : Reg} {b : Byte} {f : Bool} (h : writeWithFlag x b f s = .next t)
    (hx : r ≠ x) (hf : r ≠ VF) : t.getV r = s.getV r := by
  rw [← next_inj h, State.getV_advance, State.getV_setV_other _ _ hf, State.getV_setV_other _ _ hx]

theorem getV_of_writeResult {x r : Reg} {b : Byte} (h : writeResult x b s = .next t) (hx : r ≠ x) :
    t.getV r = s.getV r := by
  rw [← next_inj h, State.getV_advance, State.getV_setV_other _ _ hx]

/-- An instruction writes no register that is not among its destinations. -/
theorem exec_keepsRegsBut_dests {i : Instr} (h : exec i s = .next t) : KeepsRegsBut i.dests s t := by
  intro r hr
  cases i <;> simp [Instr.dests] at hr
  case ldImm | addImm | ldReg | orReg | andReg | xorReg | ldVxDT => exact getV_of_writeResult h hr
  case rnd => exact (getV_of_writeResult h hr).trans rfl
  case addReg | subReg | shr | subn | shl => exact getV_of_writeWithFlag h hr.1 hr.2
  case addI => rw [← next_inj h]; simp [State.getV_setV_other _ _ hr]
  case drw =>
    rcases execDrw_cases h with ⟨_, _, rfl⟩ | ⟨_, rfl⟩
    · rfl
    · exact State.getV_setV_other s _ hr
  case ldVxK =>
    rcases execLdVxK_cases h with ⟨_, _, rfl⟩ | ⟨_, rfl⟩
    · rw [State.getV_advance, State.getV_setV_other _ _ hr]
    · rfl
  case ldVxMem x =>
    rcases execLdVxMem_cases h with ⟨_, _, rfl⟩ | ⟨_, rfl⟩
    · rfl
    · have hx : ¬ (0 ≤ r.val ∧ r.val < 0 + (s.bytesAtI (x.val + 1)).length) := by
        rw [State.length_bytesAtI]; have := Fin.lt_def.1 hr; omega
      rw [State.getV, getElem_loadRegs, if_neg hx, State.getV]
  all_goals exact exec_frame h .V (by simp [Instr.footprint]) r

/-! ### The frame of a step -/

theorem keeps_refl (p : Part) (s : State) : Keeps p s s := by
  cases p <;> simp [Keeps]

theorem stepWaiting_frame (s : State) : KeepsAllBut [.V, .pc, .status] s (stepWaiting s) := by
  rcases stepWaiting_cases s with ⟨k, _, hk⟩ | ⟨_, hk⟩ <;> rw [hk]
  · intro p hp; cases p <;> simp [Keeps] at hp ⊢
  · exact fun p _ => keeps_refl p s

/-- A part that neither a fault nor the end of a key wait writes is written by an instruction that the
step fetched, decoded and ran, and that has it in its footprint. -/
theorem step_changes {p : Part} (h : step s = .next t) (hp : p ∉ [.V, .pc, .status, .fault])
    (hk : ¬ Keeps p s t) :
    s.status = .running ∧ ∃ i, decodeWord (s.mem.readWord s.pc.toNat) = some i ∧
      exec i s = .next t ∧ p ∈ i.footprint := by
  have hfault : ∀ k op, t ≠ s.takeFault k op := fun k op ht =>
    hk (ht ▸ keepsAllBut_takeFault (by simp) k op s p hp)
  cases step_cases h with
  | ended _ ht => exact absurd (ht ▸ keeps_refl p s) hk
  | waiting _ ht =>
    have hsub : [Part.V, .pc, .status] ⊆ [.V, .pc, .status, .fault] := by simp
    exact absurd (ht ▸ stepWaiting_frame s p fun hm => hp (hsub hm)) hk
  | badPc _ _ ht => exact absurd ht (hfault _ _)
  | badWord _ _ _ ht => exact absurd ht (hfault _ _)
  | instr hs _ i hw ht => exact ⟨hs, i, hw, ht, by_contra fun hm => hk (exec_frame ht p hm)⟩

/-! ### Who writes what -/

/-- The stack is kept when its sixteen entries are. -/
theorem keeps_stack {s t : State} : Keeps .stack s t ↔ t.stack = s.stack :=
  ⟨fun h => Vector.ext fun j hj => h ⟨j, hj⟩, fun h j => by rw [h]⟩

/-- Settles O16: no footprint holds the key latches. -/
theorem stepLeavesKeypadAlone : Obligations.StepLeavesKeypadAlone := by
  intro s t h
  by_contra hk
  obtain ⟨_, i, _, _, hi⟩ := step_changes (p := .key) h (by decide) hk
  cases i <;> simp [Instr.footprint] at hi

theorem DT_mem_footprint {i : Instr} : .DT ∈ i.footprint ↔ ∃ x, i = .ldDTVx x := by
  cases i <;> simp [Instr.footprint]

theorem ST_mem_footprint {i : Instr} : .ST ∈ i.footprint ↔ ∃ x, i = .ldSTVx x := by
  cases i <;> simp [Instr.footprint]

/-- Settles O17: each timer stands in the footprint of one instruction, which writes Vx there. -/
theorem timersSetOnlyByTheirInstructions : Obligations.TimersSetOnlyByTheirInstructions := by
  intro s t h
  constructor <;> intro hk
  · obtain ⟨hs, i, hw, ht, hi⟩ := step_changes (p := .DT) h (by decide) hk
    obtain ⟨x, rfl⟩ := DT_mem_footprint.1 hi
    exact ⟨hs, x, hw, next_inj ht ▸ rfl⟩
  · obtain ⟨hs, i, hw, ht, hi⟩ := step_changes (p := .ST) h (by decide) hk
    obtain ⟨x, rfl⟩ := ST_mem_footprint.1 hi
    exact ⟨hs, x, hw, next_inj ht ▸ rfl⟩

theorem stack_mem_footprint {i : Instr} : .stack ∈ i.footprint ↔ ∃ nnn, i = .call nnn := by
  cases i <;> simp [Instr.footprint]

theorem sp_mem_footprint {i : Instr} : .sp ∈ i.footprint ↔ (∃ nnn, i = .call nnn) ∨ i = .ret := by
  cases i <;> simp [Instr.footprint]

/-- A CALL that pushes raises `sp` by one (R77). -/
theorem sp_of_exec_call {nnn : Addr12} (h : exec (.call nnn) s = .next t)
    (hk : t.stack ≠ s.stack ∨ t.sp ≠ s.sp) : t.sp.val = s.sp.val + 1 := by
  rcases execCall_cases h with ⟨_, rfl⟩ | ⟨_, rfl⟩
  · simp at hk
  · rfl

/-- A RET that pops lowers `sp` by one (R75). -/
theorem sp_of_exec_ret (h : exec .ret s = .next t) (hk : t.sp ≠ s.sp) :
    s.sp.val = t.sp.val + 1 := by
  rcases execRet_cases h with ⟨_, rfl⟩ | ⟨hsp, rfl⟩
  · simp at hk
  · exact (Nat.succ_pred hsp).symm

/-- Settles O18: CALL alone has the stack in its footprint, CALL and RET alone `sp`. -/
theorem stackWrittenOnlyByCallAndRet : Obligations.StackWrittenOnlyByCallAndRet := by
  intro s t h
  constructor <;> intro hk
  · obtain ⟨_, i, hw, ht, hi⟩ := step_changes h (by decide) (mt keeps_stack.1 hk)
    obtain ⟨nnn, rfl⟩ := stack_mem_footprint.1 hi
    exact ⟨nnn, hw, sp_of_exec_call ht (.inl hk)⟩
  · obtain ⟨_, i, hw, ht, hi⟩ := step_changes (p := .sp) h (by decide) hk
    rcases sp_mem_footprint.1 hi with ⟨nnn, rfl⟩ | rfl
    · exact .inl ⟨nnn, hw, sp_of_exec_call ht (.inr hk)⟩
    · exact .inr ⟨hw, sp_of_exec_ret ht hk⟩

/-- A byte that a step changes is changed by the instruction it ran. -/
theorem step_changes_byte {a : Nat} (h : step s = .next t) (hk : t.mem.read a ≠ s.mem.read a) :
    ∃ i, decodeWord (s.mem.readWord s.pc.toNat) = some i ∧ exec i s = .next t := by
  obtain ⟨_, i, hw, ht, _⟩ := step_changes (p := .mem) h (by decide) fun hm => hk (hm a)
  exact ⟨i, hw, ht⟩

/-- A byte that reads differently after a block store lies in the block. -/
theorem Memory.mem_block_of_read_ne {m : Memory} {a a' : Nat} {bs : List Byte}
    (h : (m.writeBytes a bs).read a' ≠ m.read a') : a ≤ a' ∧ a' < a + bs.length := by
  by_contra hn
  exact h (by rw [Memory.read_writeBytes, if_neg hn])

/-- Settles O19: the two stores alone change memory, in the block they store. -/
theorem memoryWrittenOnlyByStores : Obligations.MemoryWrittenOnlyByStores := by
  intro s t a h hk
  obtain ⟨i, hw, ht⟩ := step_changes_byte h hk
  rcases exec_mem ht with hm | ⟨x, rfl, _, hm⟩ | ⟨x, rfl, _, hm⟩ <;> rw [hm] at hk
  · exact absurd rfl hk
  · exact .inl ⟨x, hw, Memory.mem_block_of_read_ne hk⟩
  · exact .inr ⟨x, hw, State.length_regsUpTo s x ▸ Memory.mem_block_of_read_ne hk⟩

/-- Settles O20: the check of every store (D11) puts its block above the font. -/
theorem fontNeverOverwritten : Obligations.FontNeverOverwritten := by
  intro s t a h ha
  by_contra hk
  obtain ⟨i, _, ht⟩ := step_changes_byte h hk
  rcases exec_mem_block ht with hm | ⟨b, bytes, hb, _, hm⟩ <;> rw [hm] at hk
  · exact hk rfl
  · exact hk (Memory.read_font_writeBytes s.mem bytes hb ha)

theorem I_mem_footprint {i : Instr} :
    .I ∈ i.footprint ↔ (∃ nnn, i = .ldI nnn) ∨ (∃ x, i = .addI x) ∨ ∃ x, i = .ldF x := by
  cases i <;> simp [Instr.footprint]

theorem fb_mem_footprint {i : Instr} :
    .fb ∈ i.footprint ↔ i = .cls ∨ ∃ x y n, i = .drw x y n := by
  cases i <;> simp [Instr.footprint]

/-- Settles O21: the footprints that hold `I`, and those that hold the framebuffer. -/
theorem indexAndScreenWriters : Obligations.IndexAndScreenWriters := by
  intro s t h
  constructor <;> intro hk
  · obtain ⟨_, i, hw, _, hi⟩ := step_changes (p := .I) h (by decide) hk
    rw [hw]
    simpa using I_mem_footprint.1 hi
  · obtain ⟨_, i, hw, _, hi⟩ := step_changes (p := .fb) h (by decide) hk
    rw [hw]
    simpa using fb_mem_footprint.1 hi

/-- Settles O22: the instructions that have VF among their destinations. -/
theorem othersWriteVFOnlyAsDestination : Obligations.OthersWriteVFOnlyAsDestination := by
  intro i s t h hk
  have hVF : VF ∈ i.dests := by_contra fun hn => hk (exec_keepsRegsBut_dests h VF hn)
  cases i <;> simp [Instr.dests] at hVF ⊢
  case ldVxMem x => exact le_antisymm (Fin.le_last x) hVF
  all_goals exact hVF.symm

/-! ### The run status over a step -/

/-- All a step can do to the run status (R22): keep it, end a key wait, take a fault, halt at HALT, or wait
at LD Vx,K with no key down; the record changes in a fault alone. -/
inductive StatusCase (s t : State) : Prop
  | kept (h : t.status = s.status) (hf : Keeps .fault s t)
  | woken (hs : s.status = .waitingForKey) (ht : t.status = .running)
  | faulted (hs : s.status = .running) (k : Fault) (op : Word) (ht : t = s.takeFault k op)
  | halted (hs : s.status = .running) (hpc : s.pc.toNat ≤ 0xFFE)
      (hw : decodeWord (s.mem.readWord s.pc.toNat) = some .halt)
      (ht : t.status = .halted) (hf : Keeps .fault s t)
  | waits (hs : s.status = .running) (hpc : s.pc.toNat ≤ 0xFFE)
      (hk : ∀ k : Key, s.key[k.val] = false)
      (hw : decodeWord (s.mem.readWord s.pc.toNat) = some (.ldVxK t.waitX))
      (ht : t.status = .waitingForKey) (hf : Keeps .fault s t)

theorem step_status (h : step s = .next t) : StatusCase s t := by
  cases step_cases h with
  | ended _ ht =>
    subst ht
    exact .kept rfl (keeps_refl .fault _)
  | waiting hs ht =>
    rcases stepWaiting_cases s with ⟨k, _, hw⟩ | ⟨_, hw⟩
    · exact .woken hs (by rw [ht, hw])
    · exact .kept (by rw [ht, hw]) (by rw [ht, hw]; exact keeps_refl .fault s)
  | badPc hs _ ht => exact .faulted hs _ _ ht
  | badWord hs _ _ ht => exact .faulted hs _ _ ht
  | instr hs hpc i hw ht =>
    rcases exec_status ht with ⟨hst, hf⟩ | ⟨rfl, rfl⟩ | ⟨k, rfl⟩ | ⟨x, rfl, hk, rfl⟩
    · exact .kept hst hf
    · exact .halted hs hpc hw rfl ⟨rfl, rfl, rfl⟩
    · exact .faulted hs _ _ rfl
    · exact .waits hs hpc (keySelect_eq_none.1 hk) hw rfl ⟨rfl, rfl, rfl⟩

/-- Settles O12: each case of `step_status` is one of the transitions listed. -/
theorem statusTransitions : Obligations.StatusTransitions := by
  intro s t h
  cases step_status h with
  | kept h hf =>
    rw [h]
    exact ⟨fun hs => .inr ⟨.inl hs, hf⟩, .inl, id, id⟩
  | woken hs ht => simp [hs, ht]
  | faulted hs k op ht =>
    subst ht
    exact ⟨fun _ => .inl ⟨k, op, faultTaken_takeFault k op s⟩, by simp [hs]⟩
  | halted hs _ _ ht hf => simp [hs, ht, hf]
  | waits hs _ _ _ ht hf => simp [hs, ht, hf]

/-- A step of a Running core runs the instruction whose word stands at `pc`. -/
theorem step_instr {i : Instr} (hs : s.status = .running) (hpc : s.pc.toNat ≤ 0xFFE)
    (hw : decodeWord (s.mem.readWord s.pc.toNat) = some i) : step s = exec i s := by
  rw [step_running hs hpc, hw]

theorem halted_iff_ran_halt (h : step s = .next t) (hne : s.status ≠ .halted) :
    t.status = .halted ↔ s.status = .running ∧ s.pc.toNat ≤ 0xFFE ∧
      decodeWord (s.mem.readWord s.pc.toNat) = some .halt := by
  constructor
  · intro hh
    cases step_status h with
    | kept h _ => exact absurd (h ▸ hh) hne
    | woken _ ht => simp [hh] at ht
    | faulted _ _ _ ht => simp [ht] at hh
    | halted hs hpc hw _ _ => exact ⟨hs, hpc, hw⟩
    | waits _ _ _ _ ht _ => simp [hh] at ht
  · rintro ⟨hs, hpc, hw⟩
    rw [step_instr hs hpc hw] at h
    exact next_inj h ▸ rfl

theorem waiting_iff_ran_ldVxK (h : step s = .next t) (hne : s.status ≠ .waitingForKey) :
    t.status = .waitingForKey ↔ s.status = .running ∧ s.pc.toNat ≤ 0xFFE ∧
      (∀ k : Key, s.key[k.val] = false) ∧
      decodeWord (s.mem.readWord s.pc.toNat) = some (.ldVxK t.waitX) := by
  constructor
  · intro hh
    cases step_status h with
    | kept h _ => exact absurd (h ▸ hh) hne
    | woken hs _ => exact absurd hs hne
    | faulted _ _ _ ht => simp [ht] at hh
    | halted _ _ _ ht _ => simp [hh] at ht
    | waits hs hpc hk hw _ _ => exact ⟨hs, hpc, hk, hw⟩
  · rintro ⟨hs, hpc, hk, hw⟩
    rw [step_instr hs hpc hw] at h
    rcases execLdVxK_cases h with ⟨k, hsel, _⟩ | ⟨_, ht⟩
    · simp [keySelect_eq_none.2 hk] at hsel
    · rw [ht]

/-- Settles O13: a core that changes its status to Halted or WaitingForKey ran the one instruction. -/
theorem haltAndWaitHaveOneCause : Obligations.HaltAndWaitHaveOneCause :=
  fun _ _ h => ⟨halted_iff_ran_halt h, waiting_iff_ran_ldVxK h⟩

/-! ### The sound timer is read by no step -/

/-- `s` with another sound timer. -/
def State.withST (b : Byte) (s : State) : State := { s with ST := b }

section WithST
variable (b : Byte) (s : State)

@[simp] theorem State.withST_status : (s.withST b).status = s.status := rfl
@[simp] theorem State.withST_fetch : (s.withST b).fetch = s.fetch := rfl
@[simp] theorem State.withST_key : (s.withST b).key = s.key := rfl
@[simp] theorem State.withST_pc : (s.withST b).pc = s.pc := rfl
@[simp] theorem State.withST_getV (x : Reg) : (s.withST b).getV x = s.getV x := rfl
@[simp] theorem State.withST_latch (v : Byte) : (s.withST b).latch v = s.latch v := rfl
@[simp] theorem State.withST_readFault (n : Nat) : (s.withST b).readFault n = s.readFault n := rfl
@[simp] theorem State.withST_writeFault (n : Nat) : (s.withST b).writeFault n = s.writeFault n := rfl
@[simp] theorem State.withST_regsUpTo (x : Reg) : (s.withST b).regsUpTo x = s.regsUpTo x := rfl

theorem State.withST_push (w : Word) : (s.withST b).push w = (s.push w).map (State.withST b) := by
  by_cases h : s.sp.val < 16 <;> simp [State.push, State.withST, h]

theorem State.withST_pop :
    (s.withST b).pop = s.pop.map (Prod.map id (State.withST b)) := by
  by_cases h : s.sp.val = 0 <;> simp [State.pop, State.withST, h]

end WithST

/-- An outcome, but for the sound timer. -/
def eraseST : StepOutcome → StepOutcome
  | .next t => .next (t.withST 0)
  | .fault k => .fault k
  | .refused r => .refused r

theorem exec_withST (b : Byte) (i : Instr) (s : State) :
    eraseST (exec i (s.withST b)) = eraseST (exec i s) := by
  cases i
  case ret =>
    simp only [exec, execRet, State.withST_pop]
    cases s.pop <;> rfl
  case call =>
    simp only [exec, execCall, State.withST_pc, State.withST_push]
    cases s.push (s.pc + 2) <;> rfl
  case drw =>
    simp only [exec, execDrw, State.withST_readFault]
    split <;> rfl
  case skp =>
    simp only [exec, execSkp, State.withST_latch, State.withST_getV]
    split <;> rfl
  case sknp =>
    simp only [exec, execSknp, State.withST_latch, State.withST_getV]
    split <;> rfl
  case ldVxK =>
    simp only [exec, execLdVxK, State.withST_key]
    split <;> rfl
  case ldB =>
    simp only [exec, execLdB, storeAtI, State.withST_getV, State.withST_writeFault]
    split <;> rfl
  case ldMemVx =>
    simp only [exec, execLdMemVx, storeAtI, State.withST_regsUpTo, State.withST_writeFault]
    split <;> rfl
  case ldVxMem =>
    simp only [exec, execLdVxMem, State.withST_readFault]
    split <;> rfl
  all_goals rfl

theorem step_withST (b : Byte) (s : State) : eraseST (step (s.withST b)) = eraseST (step s) := by
  simp only [step, State.withST_status, State.withST_fetch]
  split
  · rfl
  · rfl
  · simp only [stepWaiting, State.withST_key]
    split <;> rfl
  · split
    · rfl
    · split
      · rfl
      · exact exec_withST b _ s

/-- Settles O23: a step of a core with another sound timer differs in the sound timer at most. -/
theorem noStepReadsTheSoundTimer : Obligations.NoStepReadsTheSoundTimer := by
  intro s s' h
  obtain ⟨t, ht⟩ := step_next s
  obtain ⟨t', ht'⟩ := step_next s'
  refine ⟨t, t', ht, ht', next_inj ?_⟩
  calc eraseST (.next t) = eraseST (step s) := by rw [ht]
    _ = eraseST (step (s.withST 0)) := (step_withST 0 s).symm
    _ = eraseST (step (s'.withST 0)) := congrArg (eraseST ∘ step) h
    _ = eraseST (step s') := step_withST 0 s'
    _ = eraseST (.next t') := by rw [ht']

/-! ### Reset and the invariant -/

/-- Settles O1: memory by `Memory.read_resetWith`, every other part by the laws of `initialise`. -/
theorem resetValues : Obligations.ResetValues := by
  intro font s
  have hmem : ∀ a, (initialise font s).mem.read a = font.toList.getD a 0 := Memory.read_resetWith font
  refine ⟨fun j => by rw [hmem]; simp, fun a ha _ => ?_, fun x => by simp [State.getV, State.reset], rfl,
    rfl, fun j => by simp [State.reset], rfl, rfl, rfl, fun Y X => by simp [State.reset],
    fun k => by simp [State.reset], rfl, rfl, rfl, rfl, rfl, ?_⟩
  · rw [hmem, List.getD_eq_default _ _ (by simpa using ha)]
  · rw [initialise, State.resetWith_default]

/-- Settles O24: after `initialise` with the font, of which `State.reset` is the default case. -/
theorem invHoldsAtReset : Obligations.InvHoldsAtReset :=
  ⟨coreInv_resetWith, State.resetWith_default ▸ coreInv_resetWith Config.defaultFont⟩

/-- Settles O25: every case of a step keeps the invariant. -/
theorem stepKeepsInv : Obligations.StepKeepsInv := fun _ _ _ => step_keeps_coreInv

end Machine
end Sys2Proof
end

section
/-! SUPPORT. The decoder and the encoder against each other (spec/30_encoding.md R50 to R60): the
instruction of an encoding, and, group by group of the primary map, what a word decodes to. -/

namespace Sys2Proof

/-! ### From the instruction to its word and back -/

/-- The field tuple of an encoding is the operands it was built from, and they select the instruction. -/
theorem decodeWord_encode (i : Instr) : decodeWord (encode i) = some i := by
  cases i
  case cls | ret | halt => rfl
  case jp | call | ldI | jpV0 => simp [encode, decodeWord]
  case seImm | sneImm | ldImm | addImm | rnd => simp [encode, decodeWord]
  case seReg | sneReg => simp [encode, decodeWord, decodeLowZero]
  case ldReg | orReg | andReg | xorReg | addReg | subReg | shr | subn | shl =>
    simp [encode, decodeWord, decodeGroup8]
  case drw => simp [encode, decodeWord]
  case skp | sknp => simp [encode, decodeWord, decodeGroupE]
  case ldVxDT | ldVxK | ldDTVx | ldSTVx | addI | ldF | ldB | ldMemVx | ldVxMem =>
    simp [encode, decodeWord, decodeGroupF]

theorem decode_bytes_of_decodeWord {op : Word} {i : Instr} (h : decodeWord op = some i)
    (rest : List Byte) : decode (hiByte op :: loByte op :: rest) = .ok (i, rest) := by
  simp only [decode, wordOfBytes_hiByte_loByte, h]

/-- Settles O3: the two bytes join to the word, and the word selects the instruction. -/
theorem decodeInvertsEncode : Obligations.DecodeInvertsEncode :=
  fun i => decode_bytes_of_decodeWord (decodeWord_encode i)

/-- Settles O2: each word is evaluated. -/
theorem knownWordsDecode : Obligations.KnownWordsDecode := by
  unfold Obligations.KnownWordsDecode
  decide

/-! ### A word from the fields its group fixes -/

section Fixed
variable {op : Word} {f n : Nibble} {nn : Byte}

theorem wordNNN_fieldsOf (hf : (fieldsOf op).f = f) : wordNNN f (fieldsOf op).nnn = op := by
  rw [← hf, ← eq_wordNNN]

theorem wordXNN_fieldsOf (hf : (fieldsOf op).f = f) (hnn : (fieldsOf op).nn = nn) :
    wordXNN f (fieldsOf op).x nn = op := by
  rw [← hf, ← hnn, ← eq_wordXNN]

theorem wordXYN_fieldsOf (hf : (fieldsOf op).f = f) (hn : (fieldsOf op).n = n) :
    wordXYN f (fieldsOf op).x (fieldsOf op).y n = op := by
  rw [← hf, ← hn, ← eq_wordXYN]

end Fixed

/-! ### The primary map (R54), said once -/

/-- All a word can decode to, by its group: the groups 0, 8, E and F select further, 5 and 9 ask for a low
nibble 0, and in the other ten every word is the word of an instruction. -/
inductive GroupCase (op : Word) : Option Instr → Prop
  | group0 (hf : (fieldsOf op).f = 0x0) : GroupCase op (decodeGroup0 op)
  | group8 (hf : (fieldsOf op).f = 0x8) : GroupCase op (decodeGroup8 (fieldsOf op))
  | groupE (hf : (fieldsOf op).f = 0xE) : GroupCase op (decodeGroupE (fieldsOf op))
  | groupF (hf : (fieldsOf op).f = 0xF) : GroupCase op (decodeGroupF (fieldsOf op))
  | lowZero (i : Instr) (hf : (fieldsOf op).f = 0x5 ∨ (fieldsOf op).f = 0x9)
      (hi : (fieldsOf op).n = 0 → encode i = op) : GroupCase op (decodeLowZero (fieldsOf op) i)
  | total (i : Instr) (hf : (fieldsOf op).f ∉ ([0x0, 0x5, 0x8, 0x9, 0xE, 0xF] : List Nibble))
      (hi : encode i = op) : GroupCase op (some i)

/-- The sixteen arms of the map in the order of R54; the last one, past 0xF, is reached by no nibble. -/
theorem decodeWord_groupCase (op : Word) : GroupCase op (decodeWord op) := by
  simp only [decodeWord]
  split
  next hf => exact .group0 hf
  next hf => exact .total _ (by simp [hf]) (wordNNN_fieldsOf hf)
  next hf => exact .total _ (by simp [hf]) (wordNNN_fieldsOf hf)
  next hf => exact .total _ (by simp [hf]) (wordXNN_fieldsOf hf rfl)
  next hf => exact .total _ (by simp [hf]) (wordXNN_fieldsOf hf rfl)
  next hf => exact .lowZero _ (.inl hf) (wordXYN_fieldsOf hf)
  next hf => exact .total _ (by simp [hf]) (wordXNN_fieldsOf hf rfl)
  next hf => exact .total _ (by simp [hf]) (wordXNN_fieldsOf hf rfl)
  next hf => exact .group8 hf
  next hf => exact .lowZero _ (.inr hf) (wordXYN_fieldsOf hf)
  next hf => exact .total _ (by simp [hf]) (wordNNN_fieldsOf hf)
  next hf => exact .total _ (by simp [hf]) (wordNNN_fieldsOf hf)
  next hf => exact .total _ (by simp [hf]) (wordXNN_fieldsOf hf rfl)
  next hf => exact .total _ (by simp [hf]) (wordXYN_fieldsOf hf rfl)
  next hf => exact .groupE hf
  next hf => exact .groupF hf
  next =>
    simp only [imp_false] at *
    bv_omega

/-! ### The word of what a group selects -/

section Selected
variable {op : Word} {i : Instr}

theorem encode_of_decodeGroup0 (h : decodeGroup0 op = some i) : encode i = op := by
  unfold decodeGroup0 at h
  split_ifs at h with hop hop hop <;> exact Option.some.inj h ▸ hop.symm

theorem encode_of_decodeGroup8 (hf : (fieldsOf op).f = 0x8)
    (h : decodeGroup8 (fieldsOf op) = some i) : encode i = op := by
  unfold decodeGroup8 at h
  split at h <;> cases h <;> exact wordXYN_fieldsOf hf ‹_›

theorem encode_of_decodeGroupE (hf : (fieldsOf op).f = 0xE)
    (h : decodeGroupE (fieldsOf op) = some i) : encode i = op := by
  unfold decodeGroupE at h
  split at h <;> cases h <;> exact wordXNN_fieldsOf hf ‹_›

theorem encode_of_decodeGroupF (hf : (fieldsOf op).f = 0xF)
    (h : decodeGroupF (fieldsOf op) = some i) : encode i = op := by
  unfold decodeGroupF at h
  split at h <;> cases h <;> exact wordXNN_fieldsOf hf ‹_›

end Selected

theorem decodeLowZero_eq_some {d : Fields} {i j : Instr} :
    decodeLowZero d i = some j ↔ d.n = 0 ∧ i = j := by
  simp [decodeLowZero]

theorem GroupCase.encode_eq {op : Word} {i : Instr} {r : Option Instr} (hc : GroupCase op r)
    (h : r = some i) : encode i = op := by
  cases hc with
  | group0 => exact encode_of_decodeGroup0 h
  | group8 hf => exact encode_of_decodeGroup8 hf h
  | groupE hf => exact encode_of_decodeGroupE hf h
  | groupF hf => exact encode_of_decodeGroupF hf h
  | lowZero j _ hj =>
    obtain ⟨hn, rfl⟩ := decodeLowZero_eq_some.1 h
    exact hj hn
  | total j _ hj => exact Option.some.inj h ▸ hj

/-- Settles O4: in each group, the fields the decoder looked at and the operands are the whole word. -/
theorem encodeInvertsDecode : Obligations.EncodeInvertsDecode :=
  fun op _ => (decodeWord_groupCase op).encode_eq

/-! ### What a group rejects -/

theorem decodeGroup0_eq_none {op : Word} :
    decodeGroup0 op = none ↔ op ≠ 0x00E0 ∧ op ≠ 0x00EE ∧ op ≠ 0x00FD := by
  simp only [decodeGroup0, Config.haltOpcode]
  split_ifs <;> simp_all

theorem decodeGroup8_eq_none {d : Fields} : decodeGroup8 d = none ↔
    d.n ∈ ([0x8, 0x9, 0xA, 0xB, 0xC, 0xD, 0xF] : List Nibble) := by
  unfold decodeGroup8
  split
  case h_10 =>
    simp only [imp_false] at *
    simp only [List.mem_cons, List.not_mem_nil, true_iff]
    bv_omega
  all_goals simp [*]

theorem decodeGroupE_eq_none {d : Fields} :
    decodeGroupE d = none ↔ d.nn ∉ ([0x9E, 0xA1] : List Byte) := by
  unfold decodeGroupE
  split <;> simp_all

theorem decodeGroupF_eq_none {d : Fields} : decodeGroupF d = none ↔
    d.nn ∉ ([0x07, 0x0A, 0x15, 0x18, 0x1E, 0x29, 0x33, 0x55, 0x65] : List Byte) := by
  unfold decodeGroupF
  split <;> simp_all

theorem decodeLowZero_eq_none {d : Fields} {i : Instr} : decodeLowZero d i = none ↔ d.n ≠ 0 := by
  simp [decodeLowZero]

theorem GroupCase.eq_none_iff {op : Word} {r : Option Instr} (hc : GroupCase op r) :
    r = none ↔ Machine.UnsupportedWord op := by
  unfold Machine.UnsupportedWord
  cases hc with
  | group0 hf => simp [hf, decodeGroup0_eq_none]
  | group8 hf => simp [hf, decodeGroup8_eq_none]
  | groupE hf => simp [hf, decodeGroupE_eq_none]
  | groupF hf => simp [hf, decodeGroupF_eq_none]
  | lowZero _ hf _ => rcases hf with hf | hf <;> simp [hf, decodeLowZero_eq_none]
  | total _ hf _ => simp_all

/-- Settles O5: the list has one row for each group that rejects a word. -/
theorem rejectedWordsAreThoseListed : Obligations.RejectedWordsAreThoseListed :=
  fun op => (decodeWord_groupCase op).eq_none_iff

end Sys2Proof
end

section
/-! SUPPORT. The step cycle (spec/40_step_cycle.md R65 to R72): what a step answers in each run status, the
fetch of a word placed at `pc`, and the one instruction that ends the run. -/

namespace Sys2Proof

theorem decode_two_bytes {hi lo : Byte} {i : Instr} :
    decode [hi, lo] = .ok (i, []) ↔ decodeWord (wordOfBytes hi lo) = some i := by
  cases h : decodeWord (wordOfBytes hi lo) <;> simp [decode, h]

theorem decodeTableWord_eq (nbits w : Nat) :
    decodeTableWord nbits w = decodeWord (BitVec.ofNat 16 (w % 2 ^ nbits)) := by
  simp only [decodeTableWord, decode, wordOfBytes_hiByte_loByte]
  cases decodeWord (BitVec.ofNat 16 (w % 2 ^ nbits)) <;> rfl

namespace Machine

variable {s : State}

/-! ### What a step answers, status by status -/

theorem step_ended (hs : s.status = .halted ∨ s.status = .faulted) : step s = .next s := by
  rcases hs with hs | hs <;> simp only [step, hs]

theorem step_waiting (hs : s.status = .waitingForKey) : step s = .next (stepWaiting s) := by
  simp only [step, hs]

theorem step_badPc (hs : s.status = .running) (hpc : 0xFFE < s.pc.toNat) :
    step s = .next (s.takeFault .programCounterOutOfBounds 0) := by
  simp only [step, hs, State.fetch_eq_none.2 hpc]

theorem step_badWord (hs : s.status = .running) (hpc : s.pc.toNat ≤ 0xFFE)
    (hw : decodeWord (s.mem.readWord s.pc.toNat) = none) :
    step s = .next (s.takeFault .unsupportedOpcode (s.mem.readWord s.pc.toNat)) := by
  rw [step_running hs hpc, hw]

/-! ### The key wait (R68) -/

theorem stepWaiting_of_no_key (h : ∀ k : Key, s.key[k.val] = false) : stepWaiting s = s := by
  rcases stepWaiting_cases s with ⟨k, hsel, _⟩ | ⟨_, hw⟩
  · simp [keySelect_eq_none.2 h] at hsel
  · exact hw

theorem stepWaiting_of_key {k : Key} (h : s.key[k.val] = true) :
    ∃ j : Key, s.key[j.val] = true ∧
      stepWaiting s = { (s.setV s.waitX (keyByte j)).advance with status := .running } := by
  rcases stepWaiting_cases s with ⟨j, hsel, hw⟩ | ⟨hnone, _⟩
  · exact ⟨j, pressed_of_keySelect hsel, hw⟩
  · simp [keySelect_eq_none.1 hnone k] at h

/-- Settles O10: without a key the wait goes on; with one it ends, in the selected key. -/
theorem stepOfAWaitingCore : Obligations.StepOfAWaitingCore := by
  intro s hs
  rw [step_waiting hs]
  refine ⟨fun hup => by rw [stepWaiting_of_no_key hup], fun k hdown => ?_⟩
  obtain ⟨j, hj, hw⟩ := stepWaiting_of_key hdown
  have hframe := stepWaiting_frame s
  rw [hw] at hframe ⊢
  refine ⟨_, j, rfl, hj, ?_, rfl, rfl, fun r hr => ?_, hframe⟩
  · exact (congrArg BitVec.toNat (State.getV_setV_same s _ _)).trans (toNat_keyByte j)
  · exact State.getV_setV_other s _ (by simpa using hr)

/-- Settles O11: every instruction answers a next state, and so does every other arm of the step. -/
theorem stepAlwaysAnswersNext : Obligations.StepAlwaysAnswersNext := step_next

/-! ### A placed word (log entry 6) -/

section Placed
variable (s : State) (nbits w : Nat)

theorem State.withFetchWord_status : (s.withFetchWord nbits w).status = .running := rfl

theorem State.withFetchWord_pc_le : (s.withFetchWord nbits w).pc.toNat ≤ 0xFFE := by
  simp only [State.withFetchWord]
  split
  · decide
  · omega

theorem State.readWord_withFetchWord :
    (s.withFetchWord nbits w).mem.readWord (s.withFetchWord nbits w).pc.toNat =
      BitVec.ofNat 16 (w % 2 ^ nbits) :=
  Memory.readWord_placeWord _ _ _

end Placed

/-- Settles O15: the core is Running, `pc` is inside memory, and the word fetched there is the one placed. -/
theorem placedWordRunsNext : Obligations.PlacedWordRunsNext := by
  intro s w i _ hi
  refine step_instr (s.withFetchWord_status 16 w) (s.withFetchWord_pc_le 16 w) ?_
  rw [State.readWord_withFetchWord, ← decodeTableWord_eq, hi]

/-! ### Fetch, decode and dispatch -/

/-- Settles O6: the two bytes decoded are the word fetched. -/
theorem stepRunsTheDecodedInstruction : Obligations.StepRunsTheDecodedInstruction :=
  fun _ _ hs hpc hd => step_instr hs hpc (decode_two_bytes.1 hd)

/-- Settles O7: the step takes the fault with the word fetched. -/
theorem unsupportedWordFaults : Obligations.UnsupportedWordFaults :=
  fun s hs hpc hw => ⟨_, step_badWord hs hpc hw, faultTaken_takeFault _ _ s⟩

/-- Settles O8: the step takes the fault with opcode 0. -/
theorem fetchPastMemoryFaults : Obligations.FetchPastMemoryFaults :=
  fun s hs hpc => ⟨_, step_badPc hs hpc, faultTaken_takeFault _ _ s⟩

/-- Settles O9: both statuses have the step's idle arm. -/
theorem stepIdleAfterTheEnd : Obligations.StepIdleAfterTheEnd := fun _ => step_ended

/-! ### HALT (R69) -/

theorem KeepsAllBut.mono {l l' : List Part} {s t : State} (h : KeepsAllBut l s t) (hl : l ⊆ l') :
    KeepsAllBut l' s t :=
  fun p hp => h p (mt (@hl p) hp)

theorem exec_halt (s : State) : exec .halt s = .next { s.advance with status := .halted } := rfl

/-- Settles O34: the status and `pc` from the meaning of HALT, the rest from its footprint. -/
theorem haltEndsTheRun : Obligations.HaltEndsTheRun := fun s =>
  ⟨_, exec_halt s, rfl, rfl, (exec_frame (exec_halt s)).mono (by simp [Instr.footprint])⟩

end Machine
end Sys2Proof
end

section
/-! SUPPORT. Control flow (spec/41_control_flow.md R75 to R83): the jumps and skips, which write `pc` alone,
the two ways out of RET and of CALL, and the stack discipline of nested calls. -/

namespace Sys2Proof.Machine

variable {s : State}

/-! ### Jumps and skips -/

theorem faultsAtTheFetchPastMemory (t : State) : FaultsAtTheFetchPastMemory t :=
  fetchPastMemoryFaults t

theorem keepsAllBut_jump (s : State) (w : Word) : KeepsAllBut [.pc] s (s.jump w) := by
  intro p hp
  cases p <;> simp [Keeps] at hp ⊢

theorem exec_jp (nnn : Addr12) (s : State) : exec (.jp nnn) s = .next (s.jump (target nnn)) := rfl

theorem exec_jpV0 (nnn : Addr12) (s : State) :
    exec (.jpV0 nnn) s = .next (s.jump (target nnn + widen (s.getV 0))) := rfl

theorem toNat_target_add_widen (nnn : Addr12) (b : Byte) :
    (target nnn + widen b).toNat = nnn.toNat + b.toNat := by
  rw [BitVec.toNat_add, toNat_target, toNat_widen, Nat.mod_eq_of_lt (by omega)]

/-- An instruction that skips when `taken`, with the condition `p` of the skip and `q` of its contrary. -/
theorem exec_skip {i : Instr} {taken : Bool} {p q : Prop} (h : exec i s = .next (s.skipIf taken))
    (hp : p → taken = true) (hq : q → taken = false) :
    ∃ t, exec i s = .next t ∧ (p → t.pc = s.pc + 4) ∧ (q → t.pc = s.pc + 2) ∧
      KeepsAllBut [.pc] s t ∧ FaultsAtTheFetchPastMemory t := by
  refine ⟨_, h, fun h' => ?_, fun h' => ?_, keepsAllBut_jump s _, faultsAtTheFetchPastMemory _⟩
  · simp [hp h', BitVec.add_assoc]
  · simp [hq h']

/-- Settles O29: the jump is to the zero-extended operand. -/
theorem jumpSetsPc : Obligations.JumpSetsPc := fun nnn s =>
  ⟨_, exec_jp nnn s, toNat_target nnn, keepsAllBut_jump s _, faultsAtTheFetchPastMemory _⟩

/-- Settles O33: the sum of twelve and eight bits fits in the sixteen of `pc`. -/
theorem jumpPlusV0 : Obligations.JumpPlusV0 := fun nnn s =>
  ⟨_, exec_jpV0 nnn s, toNat_target_add_widen nnn _, keepsAllBut_jump s _,
    faultsAtTheFetchPastMemory _⟩

/-- Settles O31: the two skips test one condition and its contrary. -/
theorem skipOnImmediate : Obligations.SkipOnImmediate := fun _ _ _ =>
  ⟨exec_skip rfl beq_iff_eq.2 beq_false_of_ne, exec_skip rfl bne_iff_ne.2 bne_eq_false_iff_eq.2⟩

/-- Settles O32: as O31, with the second register in place of the immediate. -/
theorem skipOnRegister : Obligations.SkipOnRegister := fun _ _ _ =>
  ⟨exec_skip rfl beq_iff_eq.2 beq_false_of_ne, exec_skip rfl bne_iff_ne.2 bne_eq_false_iff_eq.2⟩

/-! ### RET (R75) -/

/-- The state after a return through the entry `j`: that entry's address, and the stack down to it. -/
def State.returned (s : State) (j : Fin 16) : State :=
  { s with sp := j.castSucc, pc := s.stack[j.val] }

theorem exec_ret_of_depth {j : Fin 16} (h : s.sp.val = j.val + 1) :
    exec .ret s = .next (s.returned j) := by
  have hpop : s.pop = some (s.stack[j.val], { s with sp := j.castSucc }) :=
    State.pop_eq_some.2 ⟨by omega, by simp [h], by simp [h, Fin.ext_iff]⟩
  simp only [exec, execRet, hpop]
  rfl

theorem exec_ret_of_empty (h : s.sp.val = 0) :
    exec .ret s = .next (s.takeFault .stackUnderflow (encode .ret)) := by
  simp only [exec, execRet, State.pop_eq_none.2 h, raise]

theorem keepsAllBut_returned (s : State) (j : Fin 16) : KeepsAllBut [.pc, .sp] s (s.returned j) := by
  intro p hp
  cases p <;> simp [State.returned, Keeps, State.getV] at hp ⊢

/-- Settles O28: the two outcomes of a pop. -/
theorem returnPopsTheStack : Obligations.ReturnPopsTheStack := fun s =>
  ⟨fun j hj => ⟨_, exec_ret_of_depth hj, rfl, rfl, keepsAllBut_returned s j,
      faultsAtTheFetchPastMemory _⟩,
    fun h0 => ⟨_, exec_ret_of_empty h0, faultTaken_takeFault _ _ s⟩⟩

/-! ### CALL (R77) -/

/-- The state after a call whose return address went into the entry `j`. -/
def State.called (s : State) (nnn : Addr12) (j : Fin 16) : State :=
  { s with stack := s.stack.set j.val (s.pc + 2), sp := j.succ, pc := target nnn }

theorem exec_call_of_room (nnn : Addr12) {j : Fin 16} (h : s.sp.val = j.val) :
    exec (.call nnn) s = .next (s.called nnn j) := by
  have hpush : s.push (s.pc + 2) =
      some { s with stack := s.stack.set j.val (s.pc + 2), sp := j.succ } :=
    State.push_eq_some.2 ⟨by omega, by simp [h, Fin.ext_iff]⟩
  simp only [exec, execCall, hpush]
  rfl

theorem exec_call_of_full (nnn : Addr12) (h : s.sp.val = 16) :
    exec (.call nnn) s = .next (s.takeFault .stackOverflow (encode (.call nnn))) := by
  simp only [exec, execCall, State.push_eq_none.2 h, raise]

theorem State.called_stack_same (s : State) (nnn : Addr12) (j : Fin 16) :
    (s.called nnn j).stack[j.val] = s.pc + 2 := by
  simp [State.called]

theorem State.called_stack_other (s : State) (nnn : Addr12) {j k : Fin 16} (h : k ≠ j) :
    (s.called nnn j).stack[k.val] = s.stack[k.val] := by
  simp [State.called, Fin.val_inj, h.symm]

theorem keepsAllBut_called (s : State) (nnn : Addr12) (j : Fin 16) :
    KeepsAllBut [.pc, .sp, .stack] s (s.called nnn j) := by
  intro p hp
  cases p <;> simp [State.called, Keeps, State.getV] at hp ⊢

/-- Settles O30: the two outcomes of a push. -/
theorem callPushesReturnAddress : Obligations.CallPushesReturnAddress := fun nnn s =>
  ⟨fun j hj => ⟨_, exec_call_of_room nnn hj, s.called_stack_same nnn j,
      fun _ => s.called_stack_other nnn, rfl, toNat_target nnn, keepsAllBut_called s nnn j⟩,
    fun hfull => ⟨_, exec_call_of_full nnn hfull, faultTaken_takeFault _ _ s⟩⟩

/-! ### Nested calls and returns (R83 (e)) -/

theorem execAll_cons {i : Instr} {t : State} (h : exec i s = .next t) (is : List Instr) :
    execAll (i :: is) s = execAll is t := by
  simp only [execAll, h]

theorem execAll_append {is : List Instr} {t : State} (h : execAll is s = .next t)
    (js : List Instr) : execAll (is ++ js) s = execAll js t := by
  induction is generalizing s with
  | nil => rw [next_inj h, List.nil_append]
  | cons i is ih =>
    obtain ⟨u, hu⟩ := exec_next i s
    rw [execAll_cons hu] at h
    rw [List.cons_append, execAll_cons hu, ih h]

theorem callSite_cons_succ (pc : Word) (nnn : Addr12) (targets : List Addr12) (n : Nat) :
    callSite pc (nnn :: targets) (n + 1) = callSite (target nnn) targets n := by
  cases n <;> rfl

/-- What nested calls from `s` leave in `u`: the address after the n-th call site stands in the n-th entry
above the old depth, and the entries below are as they were. -/
structure CallsNested (targets : List Addr12) (s u : State) : Prop where
  depth : u.sp.val = s.sp.val + targets.length
  status : u.status = s.status
  sites : ∀ n < targets.length, ∀ j : Fin 16, j.val = s.sp.val + n →
    u.stack[j.val] = callSite s.pc targets n + 2
  below : ∀ j : Fin 16, j.val < s.sp.val → u.stack[j.val] = s.stack[j.val]

/-- A first call before nested calls: its return address lies below theirs, so they keep it. -/
theorem CallsNested.cons {targets : List Addr12} {u : State} {j : Fin 16} {nnn : Addr12}
    (hj : s.sp.val = j.val) (h : CallsNested targets (s.called nnn j) u) :
    CallsNested (nnn :: targets) s u where
  depth := by
    have hsp : (s.called nnn j).sp.val = j.val + 1 := rfl
    rw [h.depth, hsp, List.length_cons]
    omega
  status := h.status
  sites n hn k hk := by
    cases n with
    | zero =>
      obtain rfl : k = j := Fin.ext (hk.trans hj)
      exact (h.below k (Nat.lt_succ_self _)).trans (s.called_stack_same nnn k)
    | succ n =>
      rw [callSite_cons_succ]
      exact h.sites n (Nat.lt_of_succ_lt_succ hn) k (show k.val = j.val + 1 + n by omega)
  below k hk := by
    have hkj : k.val < j.val := hj ▸ hk
    exact (h.below k (Nat.lt_succ_of_lt hkj)).trans (s.called_stack_other nnn (Fin.ne_of_lt hkj))

/-- Calls within the room left on the stack complete, one nested in the other. -/
theorem execAll_calls (targets : List Addr12) (s : State) (h : s.sp.val + targets.length ≤ 16) :
    ∃ u, execAll (targets.map .call) s = .next u ∧ CallsNested targets s u := by
  induction targets generalizing s with
  | nil => exact ⟨s, rfl, rfl, rfl, fun _ hn => absurd hn (Nat.not_lt_zero _), fun _ _ => rfl⟩
  | cons nnn targets ih =>
    rw [List.length_cons] at h
    have hlt : s.sp.val < 16 := by omega
    obtain ⟨u, hu, hnest⟩ := ih (s.called nnn ⟨s.sp.val, hlt⟩)
      (show s.sp.val + 1 + targets.length ≤ 16 by omega)
    exact ⟨u, (execAll_cons (exec_call_of_room nnn rfl) _).trans hu, hnest.cons rfl⟩

/-- Returns in a row down to the entry `j` come back through that entry: the ones before it leave no
trace. -/
theorem execAll_rets (k : Nat) {j : Fin 16} (h : s.sp.val = j.val + (k + 1)) :
    execAll (List.replicate (k + 1) .ret) s = .next (s.returned j) := by
  induction k generalizing j with
  | zero => exact execAll_cons (exec_ret_of_depth h) []
  | succ k ih =>
    have hlt : j.val + 1 < 16 := by omega
    have hprev : execAll (List.replicate (k + 1) .ret) s = .next (s.returned ⟨j.val + 1, hlt⟩) :=
      ih (show s.sp.val = j.val + 1 + (k + 1) by omega)
    have hlast : exec .ret (s.returned ⟨j.val + 1, hlt⟩) = .next (s.returned j) :=
      exec_ret_of_depth rfl
    rw [List.replicate_succ', execAll_append hprev, execAll_cons hlast, execAll]

/-- After nested calls, `k` returns come back after the call site of the last call but `k - 1`. -/
theorem CallsNested.rets {targets : List Addr12} {u : State} (h : CallsNested targets s u) {k : Nat}
    (hk : k ≤ targets.length) :
    ∃ t, execAll (List.replicate k .ret) u = .next t ∧
      t.sp.val = s.sp.val + (targets.length - k) ∧ t.status = s.status ∧
      (0 < k → t.pc = callSite s.pc targets (targets.length - k) + 2) := by
  cases k with
  | zero => exact ⟨u, rfl, h.depth, h.status, fun h0 => absurd h0 (Nat.lt_irrefl 0)⟩
  | succ k =>
    have hdepth := h.depth
    have hsp : u.sp.val = s.sp.val + (targets.length - (k + 1)) + (k + 1) := by omega
    have hlt : s.sp.val + (targets.length - (k + 1)) < 16 := by omega
    exact ⟨u.returned ⟨_, hlt⟩, execAll_rets k hsp, rfl, h.status,
      fun _ => h.sites _ (by omega) _ rfl⟩

/-- Settles O35: the calls leave their return addresses one above the other, and the returns come back
through them from the top; one more return finds the stack empty. -/
theorem callsAndReturnsAreLifo : Obligations.CallsAndReturnsAreLifo := by
  intro targets s hroom
  obtain ⟨u, hu, hnest⟩ := execAll_calls targets s hroom
  refine ⟨u, hu, hnest.depth, fun k hk => hnest.rets hk, fun h0 => ?_⟩
  obtain ⟨t, ht, hsp, _⟩ := hnest.rets le_rfl
  have hempty : t.sp.val = 0 := by rw [hsp, h0, Nat.sub_self]
  refine ⟨t.takeFault .stackUnderflow (encode .ret), ?_, rfl, rfl, rfl⟩
  rw [List.replicate_succ', execAll_append ht, execAll_cons (exec_ret_of_empty hempty), execAll]

end Sys2Proof.Machine
end

section
/-! SUPPORT. Register load, arithmetic, logic, shifts and random (spec/42_alu.md R90 to R103): what a
result written without a flag and with one leave in the state, and the numbers the ALU computes. -/

namespace Sys2Proof.Machine

/-! ### The two ways an ALU instruction writes -/

/-- New registers and the generic advance leave every other part as it was. -/
theorem keepsAllBut_advance_withV (v : Vector Byte 16) (s : State) :
    KeepsAllBut [.V, .pc] s (State.advance { s with V := v }) := by
  intro p hp
  cases p <;> simp [Keeps] at hp ⊢

/-- A result without a flag: the destination alone takes it (R90 to R95). -/
theorem writeResult_spec (x : Reg) (b : Byte) (s : State) :
    ∃ t, writeResult x b s = .next t ∧ t.getV x = b ∧ t.pc = s.pc + 2 ∧
      KeepsRegsBut [x] s t ∧ KeepsAllBut [.V, .pc] s t :=
  ⟨_, rfl, State.getV_setV_same s x b, rfl,
    fun _ hk => getV_of_writeResult rfl (List.ne_of_not_mem_cons hk),
    keepsAllBut_advance_withV _ s⟩

/-- A result and then its flag: VF holds the flag whatever the destination is (R103). -/
theorem writeWithFlag_spec (x : Reg) (b : Byte) (f : Bool) (s : State) :
    ∃ t, writeWithFlag x b f s = .next t ∧ (x ≠ VF → t.getV x = b) ∧ t.getV VF = flagByte f ∧
      t.pc = s.pc + 2 ∧ KeepsRegsBut [x, VF] s t ∧ KeepsAllBut [.V, .pc] s t := by
  refine ⟨_, rfl, fun hx => ?_, State.getV_setV_same _ VF _, rfl, fun k hk => ?_,
    keepsAllBut_advance_withV _ s⟩
  · rw [State.getV_advance, State.getV_setV_other _ _ hx, State.getV_setV_same]
  · obtain ⟨hx, hf⟩ : k ≠ x ∧ k ≠ VF := by simpa using hk
    exact getV_of_writeWithFlag rfl hx hf

/-- A result given bit by bit. -/
theorem writeResult_bits (s : State) (x : Reg) {b : Byte} {c : Nat → Bool}
    (hb : ∀ i, b.getLsbD i = c i) :
    ∃ t, writeResult x b s = .next t ∧ (∀ i, (t.getV x).getLsbD i = c i) ∧ t.pc = s.pc + 2 ∧
      KeepsRegsBut [x] s t ∧ KeepsAllBut [.V, .pc] s t := by
  obtain ⟨t, ht, rfl, hframe⟩ := writeResult_spec x b s
  exact ⟨t, ht, hb, hframe⟩

/-- A result and a flag given as numbers. -/
theorem writeWithFlag_toNat (s : State) (x : Reg) {b : Byte} {f : Bool} {n m : Nat}
    (hb : b.toNat = n) (hf : (flagByte f).toNat = m) :
    ∃ t, writeWithFlag x b f s = .next t ∧ (x ≠ VF → (t.getV x).toNat = n) ∧
      (t.getV VF).toNat = m ∧ t.pc = s.pc + 2 ∧ KeepsRegsBut [x, VF] s t ∧
      KeepsAllBut [.V, .pc] s t := by
  obtain ⟨t, ht, hx, hVF, hframe⟩ := writeWithFlag_spec x b f s
  exact ⟨t, ht, fun hne => hx hne ▸ hb, hVF ▸ hf, hframe⟩

/-! ### The flags and the results as numbers -/

theorem toNat_carry (a b : Byte) :
    (flagByte (carryOf a b)).toNat = if a.toNat + b.toNat > 255 then 1 else 0 := by
  simp [carryOf]

theorem toNat_noBorrow (a b : Byte) :
    (flagByte (noBorrowOf a b)).toNat = if a.toNat ≥ b.toNat then 1 else 0 := by
  simp [noBorrowOf]

theorem toNat_shiftedOutRight (a : Byte) :
    (flagByte (shiftedOutRight a)).toNat = a.toNat % 2 := by
  rw [toNat_flagByte, shiftedOutRight, BitVec.getLsbD, Nat.testBit_zero]
  simp only [decide_eq_true_eq]
  split <;> omega

theorem toNat_shiftedOutLeft (a : Byte) :
    (flagByte (shiftedOutLeft a)).toNat = a.toNat / 128 := by
  rw [toNat_flagByte, shiftedOutLeft, BitVec.getLsbD, Nat.testBit_eq_decide_div_mod_eq]
  simp only [decide_eq_true_eq]
  have := a.isLt
  split <;> omega

theorem toNat_shiftLeft_one (a : Byte) : (a <<< 1).toNat = a.toNat * 2 % 256 := by
  rw [BitVec.toNat_shiftLeft, Nat.shiftLeft_eq, pow_one]

theorem toNat_sub_eq_int (a b : Byte) : ((a - b).toNat : Int) = (a.toNat - b.toNat : Int) % 256 := by
  have := b.isLt
  rw [BitVec.toNat_sub]
  omega

/-- A difference and its no-borrow flag: SUB and SUBN differ in the order of the operands alone. -/
theorem writeDifference_spec (s : State) (x : Reg) (a b : Byte) :
    ∃ t, writeWithFlag x (a - b) (noBorrowOf a b) s = .next t ∧
      (x ≠ VF → ((t.getV x).toNat : Int) = (a.toNat - b.toNat : Int) % 256) ∧
      (t.getV VF).toNat = (if a.toNat ≥ b.toNat then 1 else 0) ∧
      t.pc = s.pc + 2 ∧ KeepsRegsBut [x, VF] s t ∧ KeepsAllBut [.V, .pc] s t := by
  obtain ⟨t, ht, hx, hVF, hframe⟩ := writeWithFlag_spec x (a - b) (noBorrowOf a b) s
  refine ⟨t, ht, fun hne => ?_, ?_, hframe⟩
  · rw [hx hne, toNat_sub_eq_int]
  · rw [hVF, toNat_noBorrow]

/-! ### The instructions -/

/-- Settles O38: the three differ in the operation on the bits alone. -/
theorem logicIsBitwise : Obligations.LogicIsBitwise := fun x _ s =>
  ⟨writeResult_bits s x fun _ => BitVec.getLsbD_or, writeResult_bits s x fun _ => BitVec.getLsbD_and,
    writeResult_bits s x fun _ => BitVec.getLsbD_xor⟩

/-- Settles O39: the carry is taken from the old operands and written after the sum. -/
theorem addSetsCarry : Obligations.AddSetsCarry := fun x _ s =>
  writeWithFlag_toNat s x (BitVec.toNat_add _ _) (toNat_carry _ _)

/-- Settles O40: the one difference, with the operands in each order. -/
theorem subtractSetsNoBorrow : Obligations.SubtractSetsNoBorrow := fun x _ s =>
  ⟨writeDifference_spec s x _ _, writeDifference_spec s x _ _⟩

/-- Settles O41: each shift is a halving or a doubling, and the bit it loses is the flag. -/
theorem shiftsMoveOutBitToVF : Obligations.ShiftsMoveOutBitToVF := fun x _ s =>
  ⟨writeWithFlag_toNat s x (BitVec.toNat_ushiftRight _ 1) (toNat_shiftedOutRight _),
    writeWithFlag_toNat s x (toNat_shiftLeft_one _) (toNat_shiftedOutLeft _)⟩

/-- Settles O36: the result is the immediate, or the old value of the second register. -/
theorem loadsSetVx : Obligations.LoadsSetVx := fun x y nn s =>
  ⟨writeResult_spec x nn s, writeResult_spec x (s.getV y) s⟩

/-- Settles O37: the sum of two bytes is taken modulo 256. -/
theorem addImmediateWraps : Obligations.AddImmediateWraps := by
  intro x nn s
  obtain ⟨t, ht, hx, hframe⟩ := writeResult_spec x (s.getV x + nn) s
  exact ⟨t, ht, hx ▸ BitVec.toNat_add _ _, hframe⟩

/-- Settles O42: RND writes its masked byte from the state in which the draw is used up. -/
theorem randomIsMasked : Obligations.RandomIsMasked := by
  intro x nn s
  obtain ⟨t, ht, hbits, hpc, hregs, hkeeps⟩ :=
    writeResult_bits { s with draws := s.draws + 1 } x
      fun i => BitVec.getLsbD_and (x := Config.rand s.draws) (y := nn) (i := i)
  have hexec : exec (.rnd x nn) s = .next t := ht
  exact ⟨t, hexec, hbits, hkeeps .draws (by simp), hpc, hregs,
    (exec_frame hexec).mono (by simp [Instr.footprint])⟩

end Sys2Proof.Machine
end

section
/-! SUPPORT. Index register and memory (spec/43_index_memory.md R110 to R116): what `I` holds after the
three instructions that set it, and the two outcomes of a block store and of the block load. -/

namespace Sys2Proof.Machine

variable {s : State}

/-! ### The index register (R110 to R112) -/

theorem exec_ldI (nnn : Addr12) (s : State) :
    exec (.ldI nnn) s = .next (s.setI (target nnn)).advance := rfl

theorem exec_addI (x : Reg) (s : State) :
    exec (.addI x) s = .next ((s.setI (s.I + widen (s.getV x))).setV VF
      (flagByte (indexOverflow s.I (s.getV x)))).advance := rfl

theorem exec_ldF (x : Reg) (s : State) :
    exec (.ldF x) s = .next (s.setI (glyphAddress (s.getV x))).advance := rfl

theorem toNat_add_widen (w : Word) (b : Byte) :
    (w + widen b).toNat = (w.toNat + b.toNat) % 65536 := by
  rw [BitVec.toNat_add, toNat_widen]

theorem toNat_indexOverflow (w : Word) (b : Byte) :
    (flagByte (indexOverflow w b)).toNat = if w.toNat + b.toNat > 0xFFF then 1 else 0 := by
  simp [indexOverflow]

/-- Settles O43: the operand zero-extended. -/
theorem loadIndex : Obligations.LoadIndex := fun nnn s =>
  ⟨_, exec_ldI nnn s, toNat_target nnn, rfl,
    (exec_frame (exec_ldI nnn s)).mono (by simp [Instr.footprint])⟩

/-- Settles O44: both VF and the sum come from the old operands, and VF is written after the sum. -/
theorem addIndexSetsOverflow : Obligations.AddIndexSetsOverflow := by
  intro x s
  have hexec := exec_addI x s
  refine ⟨_, hexec, toNat_add_widen s.I _, ?_, rfl, exec_keepsRegsBut_dests hexec,
    (exec_frame hexec).mono (by simp [Instr.footprint])⟩
  rw [State.getV_advance, State.getV_setV_same, toNat_indexOverflow]

/-- Settles O45: five bytes for each glyph, in the order of the low nibble. -/
theorem fontAddress : Obligations.FontAddress := fun x s =>
  ⟨_, exec_ldF x s, toNat_glyphAddress _, rfl,
    (exec_frame (exec_ldF x s)).mono (by simp [Instr.footprint])⟩

/-- What the invariant says of the font (R11), byte by byte. -/
theorem CoreInv.read_font {font : Font} (h : CoreInv font s) {a : Nat} (ha : a < 80) :
    some (s.mem.read a) = font[a]? := by
  have hfont := h.font ⟨a, ha⟩
  rw [Config.fontBase, Nat.zero_add] at hfont
  rw [hfont, Vector.getElem?_eq_getElem ha]

/-- Settles O46: the five bytes lie in the font, of which the invariant speaks. -/
theorem fontAddressFindsTheGlyph : Obligations.FontAddressFindsTheGlyph := by
  intro font x s hinv
  refine ⟨_, exec_ldF x s, fun r => ?_⟩
  rw [State.advance_mem, State.setI_mem, State.advance_I, State.setI_I, toNat_glyphAddress]
  exact hinv.read_font (by omega)

/-! ### The block store (R113, R114) -/

/-- The state after a store of `bytes` at `I` that no check refused. -/
def State.stored (s : State) (bytes : List Byte) : State :=
  State.advance { s with mem := s.mem.writeBytes s.I.toNat bytes }

theorem keepsAllBut_stored (s : State) (bytes : List Byte) :
    KeepsAllBut [.mem, .pc] s (s.stored bytes) := by
  intro p hp
  cases p <;> simp [State.stored, Keeps, State.getV] at hp ⊢

theorem storeAtI_of_writeFault (i : Instr) {bytes : List Byte} {k : Fault}
    (h : s.writeFault bytes.length = some k) :
    ∃ t, storeAtI i bytes s = .next t ∧ FaultTaken k (encode i) s t :=
  ⟨s.takeFault k (encode i), by rw [storeAtI, h]; rfl, faultTaken_takeFault k _ s⟩

section Block
variable {bytes : List Byte} {n : Nat} (hlen : bytes.length = n + 1)
include hlen

theorem State.stored_read_inside (s : State) {k : Nat} (hk : k ≤ n) :
    (s.stored bytes).mem.read (s.I.toNat + k) = bytes.getD k 0 := by
  rw [State.stored, State.advance_mem, Memory.read_writeBytes, if_pos (by omega),
    Nat.add_sub_cancel_left]

theorem State.stored_keeps_outside (s : State) :
    KeepsMemoryOutside s.I.toNat (n + 1) s (s.stored bytes) := fun a ha => by
  rw [State.stored, State.advance_mem, Memory.read_writeBytes, hlen, if_neg ha]

theorem storeAtI_of_fits (i : Instr) (hhi : s.I.toNat + n ≤ 0xFFF) (hlo : 0x050 ≤ s.I.toNat) :
    storeAtI i bytes s = .next (s.stored bytes) := by
  rw [storeAtI, hlen, State.writeFault_eq_none.2 ⟨hhi, hlo⟩]
  rfl

theorem storeAtI_of_past_memory (i : Instr) (h : 0xFFF < s.I.toNat + n) :
    ∃ t, storeAtI i bytes s = .next t ∧ FaultTaken .dataAddressOutOfBounds (encode i) s t :=
  storeAtI_of_writeFault i (hlen ▸ State.writeFault_eq_some.2 (.inl ⟨h, rfl⟩))

/-- A block that starts in the font and is no longer than the sixteen registers ends inside memory, so
the bounds check, which comes first, does not hide the font check. -/
theorem storeAtI_of_in_font (i : Instr) (hn : n < 16) (h : s.I.toNat < 0x050) :
    ∃ t, storeAtI i bytes s = .next t ∧ FaultTaken .fontRegionWrite (encode i) s t :=
  storeAtI_of_writeFault i (State.writeFault_eq_some.2 (.inr ⟨by omega, h, rfl⟩))

end Block

theorem exec_ldB (x : Reg) (s : State) :
    exec (.ldB x) s = storeAtI (.ldB x) (bcdDigits (s.getV x)) s := rfl

theorem exec_ldMemVx (x : Reg) (s : State) :
    exec (.ldMemVx x) s = storeAtI (.ldMemVx x) (s.regsUpTo x) s := rfl

theorem toNat_bcdDigits (a : Byte) :
    ((bcdDigits a).getD 0 0).toNat = a.toNat / 100 ∧
    ((bcdDigits a).getD 1 0).toNat = a.toNat / 10 % 10 ∧
    ((bcdDigits a).getD 2 0).toNat = a.toNat % 10 := by
  have := a.isLt
  simp only [bcdDigits, List.getD_cons_zero, List.getD_cons_succ, BitVec.toNat_ofNat]
  omega

/-- Settles O47: the two outcomes of a store, with the three digits as its block. -/
theorem bcdStoresThreeDigits : Obligations.BcdStoresThreeDigits := by
  intro x s
  have hlen := length_bcdDigits (s.getV x)
  obtain ⟨hundreds, tens, ones⟩ := toNat_bcdDigits (s.getV x)
  rw [exec_ldB]
  refine ⟨fun hhi hlo => ⟨_, storeAtI_of_fits hlen _ hhi hlo, ?_, ?_, ?_,
      s.stored_keeps_outside hlen, rfl, keepsAllBut_stored s _⟩,
    storeAtI_of_past_memory hlen _, storeAtI_of_in_font hlen _ (by decide)⟩
  · exact s.stored_read_inside hlen (k := 0) (by decide) ▸ hundreds
  · exact s.stored_read_inside hlen (k := 1) (by decide) ▸ tens
  · exact s.stored_read_inside hlen (k := 2) (by decide) ▸ ones

/-- Settles O48: the two outcomes of a store, with V0 to Vx as its block. -/
theorem dumpStoresV0ToVx : Obligations.DumpStoresV0ToVx := by
  intro x s
  have hlen := s.length_regsUpTo x
  rw [exec_ldMemVx]
  exact ⟨fun hhi hlo => ⟨_, storeAtI_of_fits hlen _ hhi hlo,
      fun _ hk => (s.stored_read_inside hlen hk).trans (s.getD_regsUpTo hk),
      s.stored_keeps_outside hlen, rfl, keepsAllBut_stored s _⟩,
    storeAtI_of_past_memory hlen _, storeAtI_of_in_font hlen _ x.isLt⟩

/-! ### The block load (R115) -/

/-- The state after a load of V0 to Vx that no check refused. -/
def State.loaded (s : State) (x : Reg) : State :=
  State.advance { s with V := loadRegs s.V 0 (s.bytesAtI (x.val + 1)) }

theorem State.getV_loaded (s : State) (x k : Reg) :
    (s.loaded x).getV k = if k ≤ x then s.mem.read (s.I.toNat + k.val) else s.getV k := by
  have hblock : (0 ≤ k.val ∧ k.val < 0 + (s.bytesAtI (x.val + 1)).length) ↔ k ≤ x := by
    rw [State.length_bytesAtI, Fin.le_def]; omega
  rw [State.getV, State.loaded, State.advance_V, getElem_loadRegs, if_congr hblock rfl rfl]
  split
  · rw [Nat.sub_zero, State.getD_bytesAtI s (Nat.lt_succ_of_le ‹k ≤ x›)]
  · rfl

theorem exec_ldVxMem_of_fits (x : Reg) (h : s.I.toNat + x.val ≤ 0xFFF) :
    exec (.ldVxMem x) s = .next (s.loaded x) := by
  rw [exec, execLdVxMem, State.readFault_eq_none.2 (.inr h)]
  rfl

theorem exec_ldVxMem_of_past_memory (x : Reg) (h : 0xFFF < s.I.toNat + x.val) :
    exec (.ldVxMem x) s = .next (s.takeFault .dataAddressOutOfBounds (encode (.ldVxMem x))) := by
  rw [exec, execLdVxMem, State.readFault_eq_some.2 ⟨Nat.succ_ne_zero _, h, rfl⟩]
  rfl

/-- Settles O49: the two outcomes of the load. -/
theorem loadFillsV0ToVx : Obligations.LoadFillsV0ToVx := fun x s =>
  ⟨fun hfits => ⟨_, exec_ldVxMem_of_fits x hfits,
      fun k hk => (s.getV_loaded x k).trans (if_pos hk),
      fun k hk => (s.getV_loaded x k).trans (if_neg (Fin.not_le.2 hk)), rfl,
      keepsAllBut_advance_withV _ s⟩,
    fun hpast => ⟨_, exec_ldVxMem_of_past_memory x hpast, faultTaken_takeFault _ _ s⟩⟩

end Sys2Proof.Machine
end

section
/-! SUPPORT. The display (spec/44_display.md R120 to R123): the state after a CLS and after a DRW that no
check refused, cell by cell and in VF, and after the same DRW again. -/

namespace Sys2Proof.Machine

variable {s : State} {x y : Reg} {n : Nibble}

/-! ### CLS (R120) -/

theorem exec_cls (s : State) :
    exec .cls s = .next (State.advance { s with fb := blankScreen }) := rfl

theorem blankScreen_getElem {X Y : Nat} (hX : X < 64) (hY : Y < 32) :
    blankScreen[Y][X] = false := by
  simp [blankScreen]

/-- Settles O50: the framebuffer becomes the blank screen, and CLS writes nothing else but `pc`. -/
theorem clearUnlightsEveryCell : Obligations.ClearUnlightsEveryCell := fun s =>
  ⟨_, exec_cls s, fun Y X => blankScreen_getElem X.isLt Y.isLt, rfl,
    (exec_frame (exec_cls s)).mono (by simp [Instr.footprint])⟩

/-! ### The flag VF as 0 or 1 (R102) -/

theorem flagByte_eq_zero_or_one (f : Bool) : flagByte f = 0 ∨ flagByte f = 1 := by
  cases f
  · exact .inl rfl
  · exact .inr rfl

theorem flagByte_eq_one {f : Bool} : flagByte f = 1 ↔ f = true := by
  cases f <;> decide

/-! ### One draw (R121) -/

/-- The state after a draw that no check refused. -/
def State.afterDraw (s : State) (x y : Reg) (n : Nibble) : State :=
  (State.setV { s with fb := (drawn s x y n).1 } VF (flagByte (drawn s x y n).2)).advance

theorem exec_drw_of_fits (h : n.toNat = 0 ∨ s.I.toNat + (n.toNat - 1) ≤ 0xFFF) :
    exec (.drw x y n) s = .next (s.afterDraw x y n) := by
  rw [exec, execDrw, State.readFault_eq_none.2 h]
  rfl

theorem exec_drw_of_past_memory (hn : n.toNat ≠ 0)
    (h : 0xFFF < s.I.toNat + (n.toNat - 1)) :
    exec (.drw x y n) s = .next (s.takeFault .dataAddressOutOfBounds (encode (.drw x y n))) := by
  rw [exec, execDrw, State.readFault_eq_some.2 ⟨hn, h, rfl⟩]
  rfl

section Draw
variable (s x y n)

theorem State.afterDraw_fb_getElem {X Y : Nat} (hX : X < 64) (hY : Y < 32) :
    (s.afterDraw x y n).fb[Y][X] = (s.fb[Y][X] ^^ spritePixel s x y n X Y) := by
  rw [← cell_in hX hY, ← cell_in hX hY]
  exact cell_drawn s x y n hX hY

theorem State.getV_VF_afterDraw :
    (s.afterDraw x y n).getV VF = flagByte (drawn s x y n).2 :=
  State.getV_setV_same _ VF _

/-- VF after a draw: a pixel of the sprite fell on a lit cell of the grid (R123). -/
theorem State.afterDraw_collides :
    (s.afterDraw x y n).getV VF = 1 ↔ ∃ (Y : Fin 32) (X : Fin 64),
      spritePixel s x y n X.val Y.val = true ∧ s.fb[Y.val][X.val] = true := by
  rw [State.getV_VF_afterDraw, flagByte_eq_one, hit_drawn]
  constructor
  · rintro ⟨X, Y, hX, hY, hp, hlit⟩
    exact ⟨⟨Y, hY⟩, ⟨X, hX⟩, hp, cell_in hX hY ▸ hlit⟩
  · rintro ⟨Y, X, hp, hlit⟩
    exact ⟨X, Y, X.isLt, Y.isLt, hp, (cell_in X.isLt Y.isLt).trans hlit⟩

/-- The same event seen in the framebuffer: a lit cell became unlit. -/
theorem State.afterDraw_collides_iff_unlights :
    (s.afterDraw x y n).getV VF = 1 ↔ ∃ (Y : Fin 32) (X : Fin 64),
      s.fb[Y.val][X.val] = true ∧ (s.afterDraw x y n).fb[Y.val][X.val] = false := by
  rw [State.afterDraw_collides]
  refine exists_congr fun Y => exists_congr fun X => ?_
  rw [State.afterDraw_fb_getElem s x y n X.isLt Y.isLt, and_comm]
  refine and_congr_right fun hlit => ?_
  rw [hlit, Bool.true_xor, Bool.not_eq_false']

theorem keepsAllBut_afterDraw : KeepsAllBut [.V, .fb, .pc] s (s.afterDraw x y n) := by
  intro p hp
  cases p <;> simp [State.afterDraw, Keeps] at hp ⊢

end Draw

/-- Settles O51: the two outcomes of a draw. -/
theorem drawXorsAndDetectsCollision : Obligations.DrawXorsAndDetectsCollision := fun x y n s =>
  ⟨fun hfits => ⟨_, exec_drw_of_fits hfits,
      fun Y X => s.afterDraw_fb_getElem x y n X.isLt Y.isLt,
      s.getV_VF_afterDraw x y n ▸ flagByte_eq_zero_or_one _,
      s.afterDraw_collides_iff_unlights x y n, rfl,
      exec_keepsRegsBut_dests (exec_drw_of_fits hfits), keepsAllBut_afterDraw s x y n⟩,
    fun hn hpast => ⟨_, exec_drw_of_past_memory hn hpast, faultTaken_takeFault _ _ s⟩⟩

/-! ### The same draw again (R122) -/

/-- The state after a draw, with the registers put back: the same draw can follow. -/
def State.readyToRedraw (s : State) (x y : Reg) (n : Nibble) : State :=
  { s.afterDraw x y n with V := s.V }

section Redraw
variable (s x y n)

/-- The first draw moves neither the sprite nor the place it is drawn at. -/
theorem spritePixel_readyToRedraw :
    spritePixel (s.readyToRedraw x y n) x y n = spritePixel s x y n := rfl

theorem exec_drw_readyToRedraw (h : n.toNat = 0 ∨ s.I.toNat + (n.toNat - 1) ≤ 0xFFF) :
    exec (.drw x y n) (s.readyToRedraw x y n) = .next ((s.readyToRedraw x y n).afterDraw x y n) :=
  exec_drw_of_fits h

theorem State.readyToRedraw_fb_getElem {X Y : Nat} (hX : X < 64) (hY : Y < 32) :
    (s.readyToRedraw x y n).fb[Y][X] = (s.fb[Y][X] ^^ spritePixel s x y n X Y) :=
  s.afterDraw_fb_getElem x y n hX hY

theorem redraw_restores_fb : ((s.readyToRedraw x y n).afterDraw x y n).fb = s.fb := by
  refine Vector.ext fun Y hY => Vector.ext fun X hX => ?_
  rw [State.afterDraw_fb_getElem _ x y n hX hY, State.readyToRedraw_fb_getElem s x y n hX hY,
    spritePixel_readyToRedraw, Bool.xor_assoc, Bool.xor_self, Bool.xor_false]

/-- The second draw unlights what the first one lit: the pixels that fell on unlit cells. -/
theorem redraw_collides :
    ((s.readyToRedraw x y n).afterDraw x y n).getV VF = 1 ↔ ∃ (Y : Fin 32) (X : Fin 64),
      spritePixel s x y n X.val Y.val = true ∧ s.fb[Y.val][X.val] = false := by
  rw [State.afterDraw_collides, spritePixel_readyToRedraw]
  refine exists_congr fun Y => exists_congr fun X => and_congr_right fun hp => ?_
  rw [State.readyToRedraw_fb_getElem s x y n X.isLt Y.isLt, hp, Bool.xor_true, Bool.not_eq_true']

end Redraw

/-- Settles O52: XOR is its own inverse, and the second draw collides where the first lit a cell. -/
theorem drawingTwiceRestores : Obligations.DrawingTwiceRestores := by
  intro x y n s hfits
  have hVF := redraw_collides s x y n
  refine ⟨_, _, exec_drw_of_fits hfits, exec_drw_readyToRedraw s x y n hfits,
    redraw_restores_fb s x y n, hVF, fun hunlit => ?_, fun h => ?_⟩
  · rw [hVF]
    exact exists_congr fun Y => exists_congr fun X => and_iff_left_of_imp (hunlit Y X)
  · obtain ⟨Y, X, hp, _⟩ := hVF.1 h
    exact ⟨Y, X, hp⟩

/-! ### A second draw that does not collide -/

/-- A core that has drawn the top row of glyph 1, a single pixel in column 2, at the origin, and is about
to draw it there again over that image. -/
def overItsOwnImage : State := State.afterDraw { State.reset with I := 5 } 0 0 1

theorem overItsOwnImage_pixel : spritePixel overItsOwnImage 0 0 1 2 0 = true := by decide

/-- The first draw unlights the cell and the second relights it, so VF is 0. -/
theorem overItsOwnImage_redraw :
    ((overItsOwnImage.readyToRedraw 0 0 1).afterDraw 0 0 1).getV VF = 0 := by decide

/-- Refutes O53: a sprite with a pixel in the grid, drawn twice over its own lit image, ends with VF 0. -/
theorem not_secondDrawAlwaysCollides : ¬ Obligations.SecondDrawAlwaysCollides := by
  intro h
  have hfits : (1 : Nibble).toNat = 0 ∨
      overItsOwnImage.I.toNat + ((1 : Nibble).toNat - 1) ≤ 0xFFF := by decide
  have hVF := (h 0 0 1 overItsOwnImage _ _ hfits (exec_drw_of_fits hfits)
    (exec_drw_readyToRedraw overItsOwnImage 0 0 1 hfits)).2 ⟨0, 2, overItsOwnImage_pixel⟩
  rw [overItsOwnImage_redraw] at hVF
  exact absurd hVF (by decide)

end Sys2Proof.Machine
end

section
/-! SUPPORT. Keypad and timers (spec/45_keypad_timers.md R125 to R130): the latch a register names and the
two skips that read it, the two outcomes of the key load, and the three timer moves. -/

namespace Sys2Proof.Machine

variable {s : State} {x : Reg} {k : Key}

/-! ### SKP and SKNP (R125, R126) -/

theorem State.latch_of_toNat {b : Byte} (h : b.toNat = k.val) : s.latch b = some s.key[k.val] :=
  State.latch_eq_some.2 ⟨h ▸ k.isLt, by simp [h]⟩

theorem exec_skp_of_key (h : (s.getV x).toNat = k.val) :
    exec (.skp x) s = .next (s.skipIf s.key[k.val]) := by
  rw [exec, execSkp, State.latch_of_toNat h]

theorem exec_sknp_of_key (h : (s.getV x).toNat = k.val) :
    exec (.sknp x) s = .next (s.skipIf (!s.key[k.val])) := by
  rw [exec, execSknp, State.latch_of_toNat h]

theorem exec_skp_of_no_key (h : 15 < (s.getV x).toNat) :
    exec (.skp x) s = .next (s.takeFault .keyIndexOutOfRange (encode (.skp x))) := by
  rw [exec, execSkp, State.latch_eq_none.2 h]
  rfl

theorem exec_sknp_of_no_key (h : 15 < (s.getV x).toNat) :
    exec (.sknp x) s = .next (s.takeFault .keyIndexOutOfRange (encode (.sknp x))) := by
  rw [exec, execSknp, State.latch_eq_none.2 h]
  rfl

/-- An instruction that skips when `taken`, with `p` the condition of the skip. -/
theorem exec_skip_iff {i : Instr} {taken : Bool} {p : Prop} [Decidable p]
    (h : exec i s = .next (s.skipIf taken)) (hp : taken = true ↔ p) :
    ∃ t, exec i s = .next t ∧ t.pc = (if p then s.pc + 4 else s.pc + 2) ∧
      KeepsAllBut [.pc] s t := by
  refine ⟨_, h, ?_, keepsAllBut_jump s _⟩
  rw [State.skipIf_pc, BitVec.add_assoc]
  exact if_congr hp rfl rfl

/-- Settles O54: the two skips test the latch and its contrary, and without a latch both fault. -/
theorem skipOnKey : Obligations.SkipOnKey := fun _ s =>
  ⟨fun _ hk => ⟨exec_skip_iff (exec_skp_of_key hk) Iff.rfl,
      exec_skip_iff (exec_sknp_of_key hk) (Bool.not_eq_true' _).to_iff⟩,
    fun hk => ⟨⟨_, exec_skp_of_no_key hk, faultTaken_takeFault _ _ s⟩,
      ⟨_, exec_sknp_of_no_key hk, faultTaken_takeFault _ _ s⟩⟩⟩

/-! ### LD Vx,K (R128) -/

theorem keySelect_of_pressed {key : Keypad} (h : key[k.val] = true) :
    ∃ j : Key, keySelect key = some j :=
  Option.ne_none_iff_exists'.1 fun hnone => by simp [keySelect_eq_none.1 hnone k] at h

theorem exec_ldVxK_of_selected (h : keySelect s.key = some k) :
    exec (.ldVxK x) s = writeResult x (keyByte k) s := by
  rw [exec, execLdVxK, h]

/-- The state of a core that has entered the key wait for `Vx` (D17). -/
def State.waitingFor (s : State) (x : Reg) : State := { s with waitX := x, status := .waitingForKey }

theorem exec_ldVxK_of_no_key (h : ∀ k : Key, s.key[k.val] = false) :
    exec (.ldVxK x) s = .next (s.waitingFor x) := by
  rw [exec, execLdVxK, keySelect_eq_none.2 h]
  rfl

theorem keepsAllBut_waitingFor (s : State) (x : Reg) :
    KeepsAllBut [.status, .waitX] s (s.waitingFor x) := by
  intro p hp
  cases p <;> simp [State.waitingFor, Keeps, State.getV] at hp ⊢

/-- Settles O56: the selected key is a pressed one, so it is the only one where there is one only. -/
theorem keyWaitCompletesOrWaits : Obligations.KeyWaitCompletesOrWaits := by
  refine fun x s => ⟨fun k hdown => ?_, fun hup => ?_⟩
  · obtain ⟨j, hsel⟩ := keySelect_of_pressed hdown
    have hj : s.key[j.val] = true := pressed_of_keySelect hsel
    obtain ⟨t, ht, hx, hframe⟩ := writeResult_spec x (keyByte j) s
    exact ⟨t, j, (exec_ldVxK_of_selected hsel).trans ht, hj, fun honly => honly j hj,
      hx ▸ toNat_keyByte j, hframe⟩
  · exact ⟨_, exec_ldVxK_of_no_key hup, rfl, rfl, keepsAllBut_waitingFor s x⟩

/-! ### The timers (R127, R129, R130) -/

theorem exec_ldVxDT (x : Reg) (s : State) : exec (.ldVxDT x) s = writeResult x s.DT s := rfl

theorem exec_ldDTVx (x : Reg) (s : State) :
    exec (.ldDTVx x) s = .next (State.advance { s with DT := s.getV x }) := rfl

theorem exec_ldSTVx (x : Reg) (s : State) :
    exec (.ldSTVx x) s = .next (State.advance { s with ST := s.getV x }) := rfl

/-- Settles O55: one move writes a register as any result does, the other two a timer and `pc`. -/
theorem timerMoves : Obligations.TimerMoves := fun x s =>
  ⟨exec_ldVxDT x s ▸ writeResult_spec x s.DT s,
    ⟨_, exec_ldDTVx x s, rfl, rfl,
      (exec_frame (exec_ldDTVx x s)).mono (by simp [Instr.footprint])⟩,
    ⟨_, exec_ldSTVx x s, rfl, rfl,
      (exec_frame (exec_ldSTVx x s)).mono (by simp [Instr.footprint])⟩⟩

end Sys2Proof.Machine
end

section
/-! SUPPORT. Faults of instructions and the host's commands (spec/60_exceptions.md R150 to R162): what a
fault writes, the timer ticks, the key latches and the framebuffer accessor, and which orders of commands
a run accepts (spec/70_reset_and_hazards.md R171, R172). -/

namespace Sys2Proof.Machine

variable {font : Font} {s t : State}

/-! ### Faults (R150) -/

/-- An instruction that leaves the core Faulted, from a state that was not, has taken its own fault. -/
theorem takeFault_of_exec_faults {i : Instr} (h : exec i s = .next t) (hs : s.status ≠ .faulted)
    (ht : t.status = .faulted) : ∃ k, t = s.takeFault k (encode i) := by
  rcases exec_status h with ⟨hkept, _⟩ | ⟨_, rfl⟩ | hfault | ⟨_, _, _, rfl⟩
  · exact absurd (hkept.symm.trans ht) hs
  · simp at ht
  · exact hfault
  · simp at ht

/-- Settles O14: the one way into Faulted is `State.takeFault`, with the instruction's own word. -/
theorem instructionFaultsArePrecise : Obligations.InstructionFaultsArePrecise := by
  intro i s t h hs ht
  obtain ⟨k, rfl⟩ := takeFault_of_exec_faults h hs ht
  exact ⟨k, faultTaken_takeFault k (encode i) s⟩

/-! ### The timers' ticks (R155) -/

theorem toNat_tickDown (b : Byte) : (tickDown b).toNat = b.toNat - 1 := by
  unfold tickDown
  split
  · rw [BitVec.toNat_sub_of_le (by bv_omega)]; rfl
  · omega

theorem toNat_iterate_tickDown (n : Nat) (b : Byte) : ((tickDown^[n]) b).toNat = b.toNat - n := by
  induction n with
  | zero => rfl
  | succ n ih => rw [Function.iterate_succ_apply', toNat_tickDown, ih, Nat.sub_sub]

/-- The two timers tick apart from each other and from the rest of the state. -/
theorem iterate_tickTimers (n : Nat) (s : State) :
    (tickTimers^[n]) s = { s with DT := (tickDown^[n]) s.DT, ST := (tickDown^[n]) s.ST } := by
  induction n with
  | zero => rfl
  | succ n ih => simp only [Function.iterate_succ_apply', ih, tickTimers]

theorem keepsAllBut_iterate_tickTimers (n : Nat) (s : State) :
    KeepsAllBut [.DT, .ST] s ((tickTimers^[n]) s) := by
  intro p hp
  cases p <;> simp [iterate_tickTimers, Keeps, State.getV] at hp ⊢

/-- Settles O57: n ticks of a timer, by induction on n, inside the frame of n `tickTimers`. -/
theorem ticksCountDown : Obligations.TicksCountDown := fun n s =>
  ⟨by rw [iterate_tickTimers, toNat_iterate_tickDown],
    by rw [iterate_tickTimers, toNat_iterate_tickDown], keepsAllBut_iterate_tickTimers n s⟩

/-! ### The key latches (R160) -/

theorem keepsAllBut_setKey (k : Key) (pressed : Bool) (s : State) :
    KeepsAllBut [.key] s (setKey k pressed s) := by
  intro p hp
  cases p <;> simp [setKey, Keeps, State.getV] at hp ⊢

/-- Settles O58: one element of the vector of latches is set. -/
theorem setKeySetsOneLatch : Obligations.SetKeySetsOneLatch := fun k pressed s =>
  ⟨Vector.getElem_set_self k.isLt,
    fun j hj => Vector.getElem_set_ne k.isLt j.isLt (Fin.val_ne_of_ne hj.symm),
    keepsAllBut_setKey k pressed s⟩

/-! ### The framebuffer accessor (R161) -/

theorem readFramebuffer_eq (s : State) : readFramebuffer s = s.fb.flatten.toList := by
  simp only [readFramebuffer, Vector.flatten, Vector.toList_mk, Array.toList_flatten, Array.toList_map,
    List.map_map]
  rfl

/-- Settles O60: the accessor is the flattened framebuffer, whose element `64*Y + X` has the row
`(64*Y + X) / 64` and the column `(64*Y + X) % 64`. -/
theorem framebufferReadsRowMajor : Obligations.FramebufferReadsRowMajor := by
  intro s
  rw [readFramebuffer_eq]
  refine ⟨Vector.length_toList, fun Y X => ?_⟩
  have hlt : 64 * Y.val + X.val < 32 * 64 := by omega
  have hrow : (64 * Y.val + X.val) / 64 = Y.val := by omega
  have hcol : (64 * Y.val + X.val) % 64 = X.val := by omega
  rw [Vector.getElem?_toList, Vector.getElem?_eq_getElem hlt, Vector.getElem_flatten hlt]
  simp only [hrow, hcol]

/-! ### The order of the commands (R171, R172) -/

/-- After the commands `p` a load is in its window: neither a step nor a load has come since the latest
`initialise` (D24). -/
def WindowOpen (p : List Command) : Prop :=
  ∃ a b, p = a ++ .initialise :: b ∧ ∀ c ∈ b, c ≠ .step ∧ ∀ bytes, c ≠ .loadProgram bytes

/-- The loads among the commands `cs`, given after the commands `p`, are in their windows. -/
def LoadsInWindowAfter (p cs : List Command) : Prop :=
  ∀ before bytes after, cs = before ++ .loadProgram bytes :: after → WindowOpen (p ++ before)

theorem loadsInTheirWindow_iff (cs : List Command) :
    LoadsInTheirWindow cs ↔ LoadsInWindowAfter [] cs := Iff.rfl

/-- `initialise` opens the window. -/
theorem windowOpen_initialise (p : List Command) : WindowOpen (p ++ [.initialise]) :=
  ⟨p, [], rfl, by simp⟩

/-- Another command leaves the window as it is, or, a step or a load, closes it. -/
theorem windowOpen_append_singleton {p : List Command} {c : Command} (hc : c ≠ .initialise) :
    WindowOpen (p ++ [c]) ↔
      WindowOpen p ∧ c ≠ .step ∧ ∀ bytes, c ≠ .loadProgram bytes := by
  constructor
  · rintro ⟨a, b, hab, hb⟩
    rcases List.eq_nil_or_concat b with rfl | ⟨b, d, rfl⟩
    · exact absurd (List.append_singleton_inj.1 hab).2 hc
    · rw [List.concat_eq_append, ← List.cons_append, ← List.append_assoc] at hab
      obtain ⟨rfl, rfl⟩ := List.append_singleton_inj.1 hab
      exact ⟨⟨a, b, rfl, fun e he => hb e (by simp [he])⟩, hb c (by simp)⟩
  · rintro ⟨⟨a, b, rfl, hb⟩, hkeep⟩
    refine ⟨a, b ++ [c], by simp, fun e he => ?_⟩
    rcases List.mem_append.1 he with he | he
    · exact hb e he
    · exact List.mem_singleton.1 he ▸ hkeep

theorem loadsInWindowAfter_nil (p : List Command) : LoadsInWindowAfter p [] := by
  intro before bytes after h
  simp at h

theorem loadsInWindowAfter_cons {p cs : List Command} {c : Command} :
    LoadsInWindowAfter p (c :: cs) ↔
      (∀ bytes, c = .loadProgram bytes → WindowOpen p) ∧ LoadsInWindowAfter (p ++ [c]) cs := by
  constructor
  · refine fun h => ⟨?_, fun before bytes after hcs => ?_⟩
    · rintro bytes rfl
      simpa using h [] bytes cs rfl
    · simpa using h (c :: before) bytes after (by rw [hcs]; rfl)
  · rintro ⟨hc, hcs⟩ before bytes after h
    rcases List.cons_eq_append_iff.1 h with ⟨rfl, hhead⟩ | ⟨before, rfl, htail⟩
    · simpa using hc bytes (List.cons.inj hhead).1.symm
    · simpa using hcs before bytes after htail

/-- The phase of the session is the one the commands `p` have led to: they began with `initialise`, and
the phase is `booted` while the window for a load is open. -/
def Session.Follows (p : List Command) : Session → Prop
  | .off _ => False
  | .booted _ => WindowOpen p
  | .started _ => ¬ WindowOpen p

/-- A step closes the window and starts the run. -/
theorem Session.follows_afterStep {p : List Command} {o : StepOutcome} {τ : Session}
    (h : afterStep o = .next τ) : τ.Follows (p ++ [.step]) := by
  cases o with
  | next t => cases h; simp [Session.Follows, windowOpen_append_singleton]
  | fault k => cases h
  | refused r => cases h

/-- An accepted command leads to the phase its place in the order says. -/
theorem Session.Follows.command {p : List Command} {σ τ : Session} {c : Command}
    (hσ : σ.Follows p) (h : σ.command font c = .next τ) : τ.Follows (p ++ [c]) := by
  cases σ with
  | off d => exact hσ.elim
  | booted s =>
    cases c with
    | initialise => cases h; exact windowOpen_initialise p
    | step => exact Session.follows_afterStep h
    | loadProgram bytes => cases h; simp [Session.Follows, windowOpen_append_singleton]
    | tickTimers | setKey => cases h; simpa [Session.Follows, windowOpen_append_singleton] using hσ
  | started s =>
    cases c with
    | initialise => cases h; exact windowOpen_initialise p
    | step => exact Session.follows_afterStep h
    | loadProgram bytes => cases h
    | tickTimers | setKey => cases h; simpa [Session.Follows, windowOpen_append_singleton] using hσ

/-- A command is accepted, and keeps the invariant, unless it is a load outside its window. -/
theorem Session.Follows.accepts {p : List Command} {σ : Session} {c : Command} (hσ : σ.Follows p)
    (hinv : σ.Inv font) (hc : ∀ bytes, c = .loadProgram bytes → WindowOpen p) :
    ∃ τ, σ.command font c = .next τ ∧ τ.Inv font := by
  cases σ with
  | off d => exact hσ.elim
  | booted s =>
    obtain ⟨τ, hτ, hkeep⟩ := Session.booted_accepts font s c
    exact ⟨τ, hτ, hkeep hinv⟩
  | started s =>
    obtain ⟨τ, hτ, hkeep⟩ :=
      Session.started_accepts font s c fun bytes hload => hσ (hc bytes hload)
    exact ⟨τ, hτ, hkeep hinv⟩

/-- A load outside its window is refused as such. -/
theorem Session.Follows.refuses {p : List Command} {σ : Session} (hσ : σ.Follows p)
    (hp : ¬ WindowOpen p) (bytes : List Byte) :
    σ.command font (.loadProgram bytes) = .refused .loadOutsideBoot := by
  cases σ with
  | off d => exact hσ.elim
  | booted s => exact absurd hσ hp
  | started s => rfl

theorem Session.run_cons_next {σ τ : Session} {c : Command} (h : σ.command font c = .next τ)
    (cs : List Command) : Session.run font σ (c :: cs) = Session.run font τ cs := by
  rw [Session.run, h]

theorem Session.run_cons_refused {σ : Session} {c : Command} {r : Refusal}
    (h : σ.command font c = .refused r) (cs : List Command) :
    Session.run font σ (c :: cs) = .refused r := by
  rw [Session.run, h]

/-- A run in which every load falls in its window completes and keeps the invariant. -/
theorem Session.run_completes {cs p : List Command} {σ : Session} (hσ : σ.Follows p)
    (hinv : σ.Inv font) (hcs : LoadsInWindowAfter p cs) :
    ∃ τ, Session.run font σ cs = .next τ ∧ τ.Inv font := by
  induction cs generalizing p σ with
  | nil => exact ⟨σ, rfl, hinv⟩
  | cons c cs ih =>
    obtain ⟨hc, hrest⟩ := loadsInWindowAfter_cons.1 hcs
    obtain ⟨τ, hτ, hkept⟩ := hσ.accepts hinv hc
    rw [Session.run_cons_next hτ]
    exact ih (hσ.command hτ) hkept hrest

/-- A run in which some load falls outside its window is refused at the first such load. -/
theorem Session.run_refused {cs p : List Command} {σ : Session} (hσ : σ.Follows p)
    (hinv : σ.Inv font) (hcs : ¬ LoadsInWindowAfter p cs) :
    Session.run font σ cs = .refused .loadOutsideBoot := by
  induction cs generalizing p σ with
  | nil => exact absurd (loadsInWindowAfter_nil p) hcs
  | cons c cs ih =>
    by_cases hc : ∀ bytes, c = .loadProgram bytes → WindowOpen p
    · obtain ⟨τ, hτ, hkept⟩ := hσ.accepts hinv hc
      rw [Session.run_cons_next hτ]
      exact ih (hσ.command hτ) hkept fun hrest => hcs (loadsInWindowAfter_cons.2 ⟨hc, hrest⟩)
    · push Not at hc
      obtain ⟨bytes, rfl, hclosed⟩ := hc
      exact Session.run_cons_refused (hσ.refuses hclosed bytes) cs

/-! ### A run from before `initialise` -/

/-- The session after the first `initialise` (R170). -/
def Session.atBoot (font : Font) (d : Nat) : Session :=
  .booted { State.resetWith font with draws := d }

theorem Session.atBoot_inv (font : Font) (d : Nat) : (Session.atBoot font d).Inv font :=
  ⟨(coreInv_resetWith font).withDraws d, rfl⟩

theorem Session.atBoot_follows (font : Font) (d : Nat) :
    (Session.atBoot font d).Follows [.initialise] :=
  windowOpen_initialise []

theorem Session.run_off_initialise (font : Font) (d : Nat) (cs : List Command) :
    Session.run font (.off d) (.initialise :: cs) = Session.run font (Session.atBoot font d) cs := rfl

theorem startsWithInitialise_cons_iff {c : Command} {cs : List Command} :
    StartsWithInitialise (c :: cs) ↔ c = .initialise := by
  constructor
  · exact fun h => h c cs rfl
  · rintro rfl _ _ h
    exact (List.cons.inj h).1.symm

/-- The first `initialise` is no load and opens the window. -/
theorem loadsInTheirWindow_initialise_cons {cs : List Command} :
    LoadsInTheirWindow (.initialise :: cs) ↔ LoadsInWindowAfter [.initialise] cs := by
  simp [loadsInTheirWindow_iff, loadsInWindowAfter_cons]

/-- Settles O27: the first command decides between the boot and the refusal of R172, and from the boot on
the phase of the session is the state of the window. -/
theorem hostRunsKeepInv : Obligations.HostRunsKeepInv := by
  intro font d cs
  cases cs with
  | nil =>
    have hstart : StartsWithInitialise [] := fun _ _ h => nomatch h
    have hloads : LoadsInTheirWindow [] := loadsInWindowAfter_nil []
    exact ⟨fun _ _ => ⟨.off d, rfl, trivial⟩, fun h => absurd hstart h, fun _ h => absurd hloads h⟩
  | cons c cs =>
    rw [startsWithInitialise_cons_iff]
    refine ⟨?_, fun hc => Session.run_cons_refused (Session.off_refuses font d hc) cs, ?_⟩
    · rintro rfl hloads
      rw [Session.run_off_initialise]
      exact Session.run_completes (Session.atBoot_follows font d) (Session.atBoot_inv font d)
        (loadsInTheirWindow_initialise_cons.1 hloads)
    · rintro rfl hloads
      rw [Session.run_off_initialise]
      exact Session.run_refused (Session.atBoot_follows font d) (Session.atBoot_inv font d)
        (mt loadsInTheirWindow_initialise_cons.2 hloads)

end Sys2Proof.Machine
end

section
/-! SUPPORT. The load of a program (spec/70_reset_and_hazards.md R171, spec/60_exceptions.md R141): the
state after a ROM that fits and after one that does not, and the memory of the former. -/

namespace Sys2Proof.Machine

section Fits
variable {bytes : List Byte} (hlen : bytes.length ≤ 0xE00)
include hlen

theorem loadProgram_of_fits (s : State) :
    loadProgram bytes s = { s with mem := s.mem.writeBytes 0x200 bytes } :=
  if_pos (decide_eq_true hlen)

theorem loadProgram_read (s : State) (a : Nat) :
    (loadProgram bytes s).mem.read a =
      if 0x200 ≤ a ∧ a < 0x200 + bytes.length then bytes.getD (a - 0x200) 0 else s.mem.read a := by
  rw [loadProgram_of_fits hlen, Memory.read_writeBytes]

theorem loadProgram_read_inside (s : State) {i : Nat} (hi : i < bytes.length) :
    (loadProgram bytes s).mem.read (0x200 + i) = bytes.getD i 0 := by
  rw [loadProgram_read hlen, if_pos (by omega), Nat.add_sub_cancel_left]

theorem loadProgram_keeps_outside (s : State) :
    KeepsMemoryOutside 0x200 bytes.length s (loadProgram bytes s) := fun a ha => by
  rw [loadProgram_read hlen, if_neg ha]

theorem keepsAllBut_loadProgram (s : State) : KeepsAllBut [.mem] s (loadProgram bytes s) := by
  intro p hp
  cases p <;> simp [loadProgram_of_fits hlen, Keeps, State.getV] at hp ⊢

end Fits

theorem loadProgram_of_too_long {bytes : List Byte} (hlen : 0xE00 < bytes.length) (s : State) :
    loadProgram bytes s = s.takeFault .romTooLarge 0 :=
  if_neg fun hfits => Nat.not_le.2 hlen (of_decide_eq_true hfits)

/-- Settles O59: a ROM that fits is one block written at 0x200; a longer one is the fault alone. -/
theorem loadProgramCopiesOrFaults : Obligations.LoadProgramCopiesOrFaults := fun _ s =>
  ⟨fun hlen => ⟨fun _ => loadProgram_read_inside hlen s, loadProgram_keeps_outside hlen s,
      keepsAllBut_loadProgram hlen s⟩,
    fun hlen => loadProgram_of_too_long hlen s ▸ faultTaken_takeFault .romTooLarge 0 s⟩

end Sys2Proof.Machine
end
